-- ==== Sys2Proof/Word.lean ====
section
/-! DEFINITION. The word types of the fantasy8 CORE (spec 00_scope.md R9, R11): bytes, 16-bit words, register indices. -/

namespace Sys2Proof

/-- Register contents, memory bytes and byte immediates: 8 bits (R9, R20, R50). -/
abbrev Byte := BitVec 8

/-- Instruction words, I, the pc and the stack slots: 16 bits (R9, R70). -/
abbrev Word := BitVec 16

/-- A register index, named by a 4-bit field of an instruction word (R20, R73). -/
abbrev Reg := Fin 16

/-- `VF`, the flag register (R21). -/
abbrev Reg.flag : Reg := 15

end Sys2Proof
end

