-- ==== Sys2Proof/Syntax.lean ====
section
/-! DEFINITION. The instructions of the fantasy8 CORE: one constructor per row of the opcode table (spec 30_encoding.md R74, R78). -/

namespace Sys2Proof

/-- The 34 instructions, each with the operands of its format (R72, R74). A word that matches no row is no
instruction: the decoder rejects it by name. `nnn` is an address operand of 16 bits, of which the machine
uses the low 12 (R73: "any 16-bit address operand is masked to its low 12 bits before use"); the operand
of an encoded instruction has 12 (`Instr.wellFormed`). The `y` of `shr` and `shl` is decoded and ignored (R77). -/
inductive Instr where
  /-- 00E0 CLS (R171) -/
  | cls
  /-- 00EE RET (R101) -/
  | ret
  /-- 1nnn JP nnn (R102) -/
  | jp (nnn : Word)
  /-- 2nnn CALL nnn (R103) -/
  | call (nnn : Word)
  /-- 3xkk SE Vx, kk (R104) -/
  | seImm (x : Reg) (kk : Byte)
  /-- 4xkk SNE Vx, kk (R105) -/
  | sneImm (x : Reg) (kk : Byte)
  /-- 5xy0 SE Vx, Vy (R106) -/
  | seReg (x y : Reg)
  /-- 9xy0 SNE Vx, Vy (R107) -/
  | sneReg (x y : Reg)
  /-- 6xkk LD Vx, kk (R121) -/
  | ldImm (x : Reg) (kk : Byte)
  /-- 7xkk ADD Vx, kk (R122) -/
  | addImm (x : Reg) (kk : Byte)
  /-- 8xy0 LD Vx, Vy (R123) -/
  | ldReg (x y : Reg)
  /-- 8xy1 OR Vx, Vy (R124) -/
  | orReg (x y : Reg)
  /-- 8xy2 AND Vx, Vy (R125) -/
  | andReg (x y : Reg)
  /-- 8xy3 XOR Vx, Vy (R126) -/
  | xorReg (x y : Reg)
  /-- 8xy4 ADD Vx, Vy (R127) -/
  | addReg (x y : Reg)
  /-- 8xy5 SUB Vx, Vy (R128) -/
  | subReg (x y : Reg)
  /-- 8xy6 SHR Vx (R129) -/
  | shr (x y : Reg)
  /-- 8xy7 SUBN Vx, Vy (R130) -/
  | subnReg (x y : Reg)
  /-- 8xyE SHL Vx (R131) -/
  | shl (x y : Reg)
  /-- Annn LD I, nnn (R151) -/
  | ldI (nnn : Word)
  /-- Bnnn JP V0, nnn (R108) -/
  | jpV0 (nnn : Word)
  /-- Cxkk RND Vx, kk (R134) -/
  | rnd (x : Reg) (kk : Byte)
  /-- Dxyn DRW Vx, Vy, n (R172); `n` is a count of rows, 0 to 15 -/
  | drw (x y : Reg) (n : Fin 16)
  /-- Ex9E SKP Vx (R181) -/
  | skp (x : Reg)
  /-- ExA1 SKNP Vx (R182) -/
  | sknp (x : Reg)
  /-- Fx07 LD Vx, DT (R183) -/
  | ldVxDT (x : Reg)
  /-- Fx15 LD DT, Vx (R185) -/
  | ldDTVx (x : Reg)
  /-- Fx18 LD ST, Vx (R186) -/
  | ldSTVx (x : Reg)
  /-- Fx0A LD Vx, K (R184) -/
  | ldVxK (x : Reg)
  /-- Fx1E ADD I, Vx (R152) -/
  | addI (x : Reg)
  /-- Fx29 LD F, Vx (R153) -/
  | ldF (x : Reg)
  /-- Fx33 BCD Vx (R154) -/
  | bcd (x : Reg)
  /-- Fx55 STORE Vx (R155) -/
  | store (x : Reg)
  /-- Fx65 READ Vx (R156) -/
  | read (x : Reg)
  deriving DecidableEq, Repr

end Sys2Proof
end

