-- ==== Sys2Proof/WellFormed.lean ====
section
/-! DEFINITION. Which terms of `Instr` are instructions of the machine. -/

namespace Sys2Proof

/-- The address operand fits the 12-bit field `nnn = w[11:0]` (spec 30_encoding.md R71, R73). -/
def fitsAddressField (nnn : Word) : Bool := nnn.toNat < 4096

/-- The only operand wider in Lean than in its encoding is the `nnn` of format A (R72): every other
operand's type holds exactly the values its field can hold. -/
def Instr.wellFormed : Instr → Bool
  | .jp nnn => fitsAddressField nnn
  | .call nnn => fitsAddressField nnn
  | .ldI nnn => fitsAddressField nnn
  | .jpV0 nnn => fitsAddressField nnn
  | .cls | .ret => true
  | .seImm _ _ | .sneImm _ _ | .ldImm _ _ | .addImm _ _ | .rnd _ _ => true
  | .seReg _ _ | .sneReg _ _ | .ldReg _ _ | .orReg _ _ | .andReg _ _ | .xorReg _ _ => true
  | .addReg _ _ | .subReg _ _ | .shr _ _ | .subnReg _ _ | .shl _ _ => true
  | .drw _ _ _ => true
  | .skp _ | .sknp _ | .ldVxDT _ | .ldDTVx _ | .ldSTVx _ | .ldVxK _ => true
  | .addI _ | .ldF _ | .bcd _ | .store _ | .read _ => true

end Sys2Proof
end

