-- ==== Sys2Proof/Decode.lean ====
section
/-! DEFINITION. Decoding and encoding (spec 30_encoding.md R70 to R79): the operand fields, the total decoder,
its inverse, the opcode table as data, and the host's `decodeTableWord`. -/

namespace Sys2Proof

/-! ## Operand fields (R71) -/

/-- `op = w[15:12]`, the operation family. -/
def fieldOp (w : Word) : Nat := (w.extractLsb' 12 4).toNat

/-- `x = w[11:8]`. -/
def fieldX (w : Word) : Reg := ⟨(w.extractLsb' 8 4).toNat, (w.extractLsb' 8 4).isLt⟩

/-- `y = w[7:4]`. -/
def fieldY (w : Word) : Reg := ⟨(w.extractLsb' 4 4).toNat, (w.extractLsb' 4 4).isLt⟩

/-- `n = w[3:0]`, a sub-opcode or a sprite height. -/
def fieldN (w : Word) : Fin 16 := ⟨(w.extractLsb' 0 4).toNat, (w.extractLsb' 0 4).isLt⟩

/-- `kk = w[7:0]`, an immediate byte or the sub-opcode of the E and F families. -/
def fieldKK (w : Word) : Byte := w.extractLsb' 0 8

/-- `nnn = w[11:0]`, used as it stands, never sign-extended (R73). -/
def fieldNNN (w : Word) : Word := (w.extractLsb' 0 12).setWidth 16

/-! ## The decoder (R74 to R78) -/

/-- Why the decoder gives no instruction. -/
inductive DecodeReject where
  /-- the word matches no row of the opcode table: the spec's Unknown variant, with the raw word (R74, R76) -/
  | unknown (w : Word)
  /-- fewer than the two bytes of an instruction were given (R70); the machine's own fetch always gives two -/
  | truncated
  deriving DecidableEq, Repr

/-- What a word decodes to (R78: a closed variant, with an explicit Unknown case). -/
inductive Decoded where
  | instr (i : Instr)
  | reject (r : DecodeReject)
  deriving DecidableEq, Repr

/-- Family 8 by its low nibble (R74): sub-opcodes 8 to D and F are Unknown (R76, R133). -/
def decodeAlu (w : Word) : Decoded :=
  let x := fieldX w
  let y := fieldY w
  match (fieldN w).val with
  | 0x0 => .instr (.ldReg x y)
  | 0x1 => .instr (.orReg x y)
  | 0x2 => .instr (.andReg x y)
  | 0x3 => .instr (.xorReg x y)
  | 0x4 => .instr (.addReg x y)
  | 0x5 => .instr (.subReg x y)
  | 0x6 => .instr (.shr x y)
  | 0x7 => .instr (.subnReg x y)
  | 0xE => .instr (.shl x y)
  | _ => .reject (.unknown w)

/-- Family E by its low byte (R74, R76). -/
def decodeKey (w : Word) : Decoded :=
  match (fieldKK w).toNat with
  | 0x9E => .instr (.skp (fieldX w))
  | 0xA1 => .instr (.sknp (fieldX w))
  | _ => .reject (.unknown w)

/-- Family F by its low byte (R74, R76). -/
def decodeMisc (w : Word) : Decoded :=
  let x := fieldX w
  match (fieldKK w).toNat with
  | 0x07 => .instr (.ldVxDT x)
  | 0x0A => .instr (.ldVxK x)
  | 0x15 => .instr (.ldDTVx x)
  | 0x18 => .instr (.ldSTVx x)
  | 0x1E => .instr (.addI x)
  | 0x29 => .instr (.ldF x)
  | 0x33 => .instr (.bcd x)
  | 0x55 => .instr (.store x)
  | 0x65 => .instr (.read x)
  | _ => .reject (.unknown w)

/-- Decoding: a total function of the word alone, with every fixed digit of a pattern checked (R74, R75, R78). -/
def decode (w : Word) : Decoded :=
  match fieldOp w with
  | 0x0 =>
    if w = 0x00E0#16 then .instr .cls
    else if w = 0x00EE#16 then .instr .ret
    else .reject (.unknown w)
  | 0x1 => .instr (.jp (fieldNNN w))
  | 0x2 => .instr (.call (fieldNNN w))
  | 0x3 => .instr (.seImm (fieldX w) (fieldKK w))
  | 0x4 => .instr (.sneImm (fieldX w) (fieldKK w))
  | 0x5 => if (fieldN w).val = 0 then .instr (.seReg (fieldX w) (fieldY w)) else .reject (.unknown w)
  | 0x6 => .instr (.ldImm (fieldX w) (fieldKK w))
  | 0x7 => .instr (.addImm (fieldX w) (fieldKK w))
  | 0x8 => decodeAlu w
  | 0x9 => if (fieldN w).val = 0 then .instr (.sneReg (fieldX w) (fieldY w)) else .reject (.unknown w)
  | 0xA => .instr (.ldI (fieldNNN w))
  | 0xB => .instr (.jpV0 (fieldNNN w))
  | 0xC => .instr (.rnd (fieldX w) (fieldKK w))
  | 0xD => .instr (.drw (fieldX w) (fieldY w) (fieldN w))
  | 0xE => decodeKey w
  | 0xF => decodeMisc w
  | _ => .reject (.unknown w)

/-- The word of two bytes as the machine stores it: the byte at the lower address is the high one (R55, R70). -/
def wordOfBytes (hi lo : Byte) : Word := hi ++ lo

/-- Decoding from any bytes, with the bytes left over (R70). -/
def decodeBytes : List Byte → Decoded × List Byte
  | hi :: lo :: rest => (decode (wordOfBytes hi lo), rest)
  | short => (.reject .truncated, short)

/-! ## The encoder (R72, R79): the row's match, with the operands in their places -/

/-- Format A: a row's match and `nnn` in bits 11:0. -/
def encodeA (m : Word) (nnn : Word) : Word := m ||| (nnn &&& 0x0FFF#16)

/-- Format XK: `x` in bits 11:8 and `kk` in bits 7:0. -/
def encodeXK (m : Word) (x : Reg) (kk : Byte) : Word :=
  m ||| (BitVec.ofNat 16 x.val <<< 8) ||| kk.setWidth 16

/-- Format XYN: `x` in bits 11:8, `y` in bits 7:4 and `n` in bits 3:0. -/
def encodeXYN (m : Word) (x y : Reg) (n : Fin 16) : Word :=
  m ||| (BitVec.ofNat 16 x.val <<< 8) ||| (BitVec.ofNat 16 y.val <<< 4) ||| BitVec.ofNat 16 n.val

/-- Format XY: `x` in bits 11:8 and `y` in bits 7:4. -/
def encodeXY (m : Word) (x y : Reg) : Word :=
  m ||| (BitVec.ofNat 16 x.val <<< 8) ||| (BitVec.ofNat 16 y.val <<< 4)

/-- Format X: `x` in bits 11:8. -/
def encodeX (m : Word) (x : Reg) : Word := m ||| (BitVec.ofNat 16 x.val <<< 8)

/-- The word of an instruction (R79). For a term that is not well formed the address operand is cut to its field. -/
def encode : Instr → Word
  | .cls => 0x00E0
  | .ret => 0x00EE
  | .jp nnn => encodeA 0x1000 nnn
  | .call nnn => encodeA 0x2000 nnn
  | .seImm x kk => encodeXK 0x3000 x kk
  | .sneImm x kk => encodeXK 0x4000 x kk
  | .seReg x y => encodeXY 0x5000 x y
  | .sneReg x y => encodeXY 0x9000 x y
  | .ldImm x kk => encodeXK 0x6000 x kk
  | .addImm x kk => encodeXK 0x7000 x kk
  | .ldReg x y => encodeXY 0x8000 x y
  | .orReg x y => encodeXY 0x8001 x y
  | .andReg x y => encodeXY 0x8002 x y
  | .xorReg x y => encodeXY 0x8003 x y
  | .addReg x y => encodeXY 0x8004 x y
  | .subReg x y => encodeXY 0x8005 x y
  | .shr x y => encodeXY 0x8006 x y
  | .subnReg x y => encodeXY 0x8007 x y
  | .shl x y => encodeXY 0x800E x y
  | .ldI nnn => encodeA 0xA000 nnn
  | .jpV0 nnn => encodeA 0xB000 nnn
  | .rnd x kk => encodeXK 0xC000 x kk
  | .drw x y n => encodeXYN 0xD000 x y n
  | .skp x => encodeX 0xE09E x
  | .sknp x => encodeX 0xE0A1 x
  | .ldVxDT x => encodeX 0xF007 x
  | .ldDTVx x => encodeX 0xF015 x
  | .ldSTVx x => encodeX 0xF018 x
  | .ldVxK x => encodeX 0xF00A x
  | .addI x => encodeX 0xF01E x
  | .ldF x => encodeX 0xF029 x
  | .bcd x => encodeX 0xF033 x
  | .store x => encodeX 0xF055 x
  | .read x => encodeX 0xF065 x

/-! ## The opcode table as data (R74) -/

/-- A row of the opcode table: its pattern, its mask and match, and how its operands are read (R71, R72). -/
structure OpcodeRow where
  pattern : String
  mask : Word
  pat : Word
  operands : Word → Instr

/-- The row's condition: `(w & mask) = match` (R74). -/
def OpcodeRow.holds (r : OpcodeRow) (w : Word) : Bool := (w &&& r.mask) == r.pat

/-- Families 0 to 9 but 8, in the order of R74. -/
def opcodeRowsFlow : List OpcodeRow :=
  [⟨"00E0", 0xFFFF, 0x00E0, fun _ => .cls⟩,
   ⟨"00EE", 0xFFFF, 0x00EE, fun _ => .ret⟩,
   ⟨"1nnn", 0xF000, 0x1000, fun w => .jp (fieldNNN w)⟩,
   ⟨"2nnn", 0xF000, 0x2000, fun w => .call (fieldNNN w)⟩,
   ⟨"3xkk", 0xF000, 0x3000, fun w => .seImm (fieldX w) (fieldKK w)⟩,
   ⟨"4xkk", 0xF000, 0x4000, fun w => .sneImm (fieldX w) (fieldKK w)⟩,
   ⟨"5xy0", 0xF00F, 0x5000, fun w => .seReg (fieldX w) (fieldY w)⟩,
   ⟨"9xy0", 0xF00F, 0x9000, fun w => .sneReg (fieldX w) (fieldY w)⟩,
   ⟨"6xkk", 0xF000, 0x6000, fun w => .ldImm (fieldX w) (fieldKK w)⟩,
   ⟨"7xkk", 0xF000, 0x7000, fun w => .addImm (fieldX w) (fieldKK w)⟩]

/-- Family 8 (R74). -/
def opcodeRowsAlu : List OpcodeRow :=
  [⟨"8xy0", 0xF00F, 0x8000, fun w => .ldReg (fieldX w) (fieldY w)⟩,
   ⟨"8xy1", 0xF00F, 0x8001, fun w => .orReg (fieldX w) (fieldY w)⟩,
   ⟨"8xy2", 0xF00F, 0x8002, fun w => .andReg (fieldX w) (fieldY w)⟩,
   ⟨"8xy3", 0xF00F, 0x8003, fun w => .xorReg (fieldX w) (fieldY w)⟩,
   ⟨"8xy4", 0xF00F, 0x8004, fun w => .addReg (fieldX w) (fieldY w)⟩,
   ⟨"8xy5", 0xF00F, 0x8005, fun w => .subReg (fieldX w) (fieldY w)⟩,
   ⟨"8xy6", 0xF00F, 0x8006, fun w => .shr (fieldX w) (fieldY w)⟩,
   ⟨"8xy7", 0xF00F, 0x8007, fun w => .subnReg (fieldX w) (fieldY w)⟩,
   ⟨"8xyE", 0xF00F, 0x800E, fun w => .shl (fieldX w) (fieldY w)⟩]

/-- Families A to F (R74). -/
def opcodeRowsRest : List OpcodeRow :=
  [⟨"Annn", 0xF000, 0xA000, fun w => .ldI (fieldNNN w)⟩,
   ⟨"Bnnn", 0xF000, 0xB000, fun w => .jpV0 (fieldNNN w)⟩,
   ⟨"Cxkk", 0xF000, 0xC000, fun w => .rnd (fieldX w) (fieldKK w)⟩,
   ⟨"Dxyn", 0xF000, 0xD000, fun w => .drw (fieldX w) (fieldY w) (fieldN w)⟩,
   ⟨"Ex9E", 0xF0FF, 0xE09E, fun w => .skp (fieldX w)⟩,
   ⟨"ExA1", 0xF0FF, 0xE0A1, fun w => .sknp (fieldX w)⟩,
   ⟨"Fx07", 0xF0FF, 0xF007, fun w => .ldVxDT (fieldX w)⟩,
   ⟨"Fx15", 0xF0FF, 0xF015, fun w => .ldDTVx (fieldX w)⟩,
   ⟨"Fx18", 0xF0FF, 0xF018, fun w => .ldSTVx (fieldX w)⟩,
   ⟨"Fx0A", 0xF0FF, 0xF00A, fun w => .ldVxK (fieldX w)⟩,
   ⟨"Fx1E", 0xF0FF, 0xF01E, fun w => .addI (fieldX w)⟩,
   ⟨"Fx29", 0xF0FF, 0xF029, fun w => .ldF (fieldX w)⟩,
   ⟨"Fx33", 0xF0FF, 0xF033, fun w => .bcd (fieldX w)⟩,
   ⟨"Fx55", 0xF0FF, 0xF055, fun w => .store (fieldX w)⟩,
   ⟨"Fx65", 0xF0FF, 0xF065, fun w => .read (fieldX w)⟩]

/-- The 34 rows of the decode table of R74, in the source's order. -/
def opcodeTable : List OpcodeRow := opcodeRowsFlow ++ opcodeRowsAlu ++ opcodeRowsRest

/-! ## The host's view of the decoder -/

/-- The word whose bits the table numbers `w`, of which `nbits` are given and the rest are 0. -/
def tableWord (nbits w : Nat) : Word := BitVec.ofNat 16 (w % 2 ^ nbits)

/-- The two bytes of a word as the machine stores them, the first at the lower address: big-endian (R55). -/
def bytesOfWord (w : Word) : List Byte := [w.extractLsb' 8 8, w.extractLsb' 0 8]

/-- The instruction the decoder reads from the bytes of a table word. -/
def decodeTableWord (nbits w : Nat) : Option Instr :=
  match (decodeBytes (bytesOfWord (tableWord nbits w))).1 with
  | .instr i => some i
  | .reject _ => none

end Sys2Proof
end

