-- ==== Sys2Proof/Config.lean ====
section
/-! DEFINITION. What one machine fixes (spec 00_scope.md R9), its open parameters (R10) and its one free value (R134). -/

namespace Sys2Proof.Config

/-- MEM_SIZE: addresses 0x000 to 0xFFF (R9, R50). -/
abbrev memSize : Nat := 4096

/-- PROG_BASE: where the load event writes and sets the pc (R9, R236). -/
abbrev progBase : Nat := 0x200

/-- PROG_MAX: the largest image the load event accepts (R9, R236). -/
abbrev progMax : Nat := 3584

/-- The 16 glyphs of 5 bytes occupy 0x000 to 0x04F (R9, R33). -/
abbrev glyphBytes : Nat := 80

/-- INVALID_POLICY: what an Unknown word does after its fault is surfaced (R10, R207). -/
inductive InvalidPolicy where
  | halt
  | skip
  deriving DecidableEq, Repr

/-- GLYPH_ROM: the bytes at 0x000 to 0x04F after construction (R10, R33). -/
abbrev GlyphRom := Vector Byte glyphBytes

/-- The default of GLYPH_ROM: the table of R33, glyph d at `5 * d`.
PRESUMED: the spec itself marks these 80 values "from general knowledge, not in source" (log 4). Unsafe. -/
def defaultGlyphRom : GlyphRom :=
  #v[0xF0, 0x90, 0x90, 0x90, 0xF0,  0x20, 0x60, 0x20, 0x20, 0x70,
     0xF0, 0x10, 0xF0, 0x80, 0xF0,  0xF0, 0x10, 0xF0, 0x10, 0xF0,
     0x90, 0x90, 0xF0, 0x10, 0x10,  0xF0, 0x80, 0xF0, 0x10, 0xF0,
     0xF0, 0x80, 0xF0, 0x90, 0xF0,  0xF0, 0x10, 0x20, 0x40, 0x40,
     0xF0, 0x90, 0xF0, 0x90, 0xF0,  0xF0, 0x90, 0xF0, 0x10, 0xF0,
     0xF0, 0x90, 0xF0, 0x90, 0x90,  0xE0, 0x90, 0xE0, 0x90, 0xE0,
     0xF0, 0x80, 0x80, 0x80, 0xF0,  0xE0, 0x90, 0x90, 0x90, 0xE0,
     0xF0, 0x80, 0xF0, 0x80, 0xF0,  0xF0, 0x80, 0xF0, 0x80, 0x80]

/-- The default of INVALID_POLICY: "the default must be to halt" (R10, R207). -/
def defaultPolicy : InvalidPolicy := .halt

/-- RND: the byte the `n`-th random draw supplies. FREE VALUE: any byte at every draw, under no law
(R134, decision D12; log 5). Safe: nothing in Lean can evaluate it. -/
opaque freeRandom : Nat → Byte

end Sys2Proof.Config
end

