-- ==== Sys2Proof/Machine/State.lean ====
section
/-! DEFINITION. The state of the fantasy8 CORE as plain data (spec 10_state.md R20 to R37), the coming moves of its
agents, the reasons a step can stop, and the state after reset. -/

namespace Sys2Proof.Machine

/-- The run state `RS` (R31). -/
inductive RunState where
  | idle
  | running
  | waitKey
  | faulted
  | stopped
  deriving DecidableEq, Repr

/-- The kinds a fault record can hold: the synchronous exceptions (R32, R200). -/
inductive FaultKind where
  | stackOverflow
  | stackUnderflow
  | invalidInstruction
  deriving DecidableEq, Repr

/-- The fault record `FAULT`: kind, instruction word, and the pc at which it occurred (R32). -/
structure FaultRecord where
  kind : FaultKind
  word : Word
  addr : Word
  deriving DecidableEq, Repr

/-- What is reported to the caller without being a fault record (R204, R205 codes 4 and 5). -/
inductive Report where
  /-- a CPU step while IDLE (R242) -/
  | noProgramLoaded
  /-- a load of more than 3584 bytes (R236) -/
  | programTooLarge
  deriving DecidableEq, Repr

/-- One move of an agent: the CPU, the timer or the host (R234, R235). -/
inductive Event where
  /-- the host requests a CPU step (R243) -/
  | cpuStep
  /-- the timer delivers a tick (R212, R240) -/
  | tick
  /-- the host loads a program image (R236) -/
  | load (image : List Byte)
  /-- the host unloads the program (R237) -/
  | unload
  /-- the host's stop signal (R238) -/
  | stop
  /-- the host sets KEY[k] (R239) -/
  | setKey (k : Fin 16) (pressed : Bool)
  /-- the host resets the machine (R230) -/
  | reset
  deriving DecidableEq, Repr

/-- The frame buffer: 32 rows of 64 one-bit pixels, `fb[py][px]` (R29). -/
abbrev FrameBuffer := Vector (Vector Bool 64) 32

/-- The whole state (R34), with the spec's parameters and inputs (R10, R35) as plain data. -/
structure State where
  /-- V0 .. VF (R20) -/
  v : Vector Byte 16
  /-- the index register (R23) -/
  i : Word
  /-- the program counter (R24) -/
  pc : Word
  /-- the delay timer (R25) -/
  dt : Byte
  /-- the sound timer (R26) -/
  st : Byte
  /-- the 16 stack slots (R27) -/
  stk : Vector Word 16
  /-- the number of stack entries in use, 0 to 16 (R28) -/
  sp : Fin 17
  /-- memory: the bytes that differ from what construction put there, by rising address (R50) -/
  mem : List Host.Cell
  /-- the frame buffer (R29) -/
  fb : FrameBuffer
  /-- the run state (R31) -/
  rs : RunState
  /-- the fault record, if any (R32) -/
  fault : Option FaultRecord
  /-- the key state, an input: true = pressed (R30) -/
  key : Vector Bool 16
  /-- INVALID_POLICY, a parameter (R10, R207); no step changes it (log 3) -/
  policy : Config.InvalidPolicy
  /-- GLYPH_ROM, a parameter (R10, R33); no step changes it (log 4) -/
  glyphRom : Config.GlyphRom
  /-- the model's own: how many random bytes have been drawn (R134; log 5) -/
  draws : Nat
  /-- the model's own: the coming moves of the agents, oldest first; when it is empty the CPU moves (R214; log 1) -/
  schedule : List Event
  /-- the model's own: what has been reported to the caller, oldest first (R204; log 6) -/
  reports : List Report
  deriving DecidableEq, Repr

/-- Reasons a step stops with a fault: none. Every fault of the spec is an entry that the machine takes
(R206, R207), and every other step has an effect or is a no-op, so no step of the model ends here. Safe. -/
inductive Fault where
  deriving DecidableEq, Repr

/-- Reasons an instruction has no meaning in the model. -/
inductive Refusal where
  /-- an instruction without a meaning yet, raised by `exec`'s arm of that name; no arm raises it now. Safe. -/
  | notModelled (mnemonic : String)
  deriving DecidableEq, Repr

/-- The frame buffer with every pixel 0 (R37, R171). -/
def FrameBuffer.blank : FrameBuffer := Vector.replicate 32 (Vector.replicate 64 false)

/-- The state after construction, which is the only reset (R37, R230). Memory lists nothing: it reads as GLYPH_ROM
and zeros. The parameters stand at the defaults R10 gives. -/
def State.reset : State where
  v := Vector.replicate 16 0
  i := 0
  pc := 0
  dt := 0
  st := 0
  stk := Vector.replicate 16 0
  sp := 0
  mem := []
  fb := FrameBuffer.blank
  rs := .idle
  fault := none
  key := Vector.replicate 16 false
  policy := Config.defaultPolicy
  glyphRom := Config.defaultGlyphRom
  draws := 0
  schedule := []
  reports := []

end Sys2Proof.Machine
end

