-- ==== Sys2Proof/Machine/Ops.lean ====
section
/-! DEFINITION. The named operations over memory, registers, the pc, the stack and the frame buffer, and fault entry
(spec 00_scope.md R13 to R16, 10_state.md, 20_memory.md, 60_exceptions.md R206, R207). -/

namespace Sys2Proof.Machine

/-! ## Memory (R50 to R58) -/

/-- What an address that memory does not list reads as: the bytes of construction, GLYPH_ROM and then zeros (R33, R37). -/
def Memory.unlisted (rom : Config.GlyphRom) (a : Nat) : Byte :=
  if h : a < Config.glyphBytes then rom[a] else 0

/-- The listed byte of an address. -/
def Memory.lookup (a : Nat) : List Host.Cell → Option Byte
  | [] => none
  | c :: rest => if a = c.1 then some c.2 else Memory.lookup a rest

/-- One byte of memory, at an address below 4096. -/
def Memory.read (rom : Config.GlyphRom) (m : List Host.Cell) (a : Nat) : Byte :=
  (Memory.lookup a m).getD (Memory.unlisted rom a)

/-- Lists a byte at its place by rising address. -/
def Memory.insert (a : Nat) (b : Byte) : List Host.Cell → List Host.Cell
  | [] => [(a, b)]
  | c :: rest => if a < c.1 then (a, b) :: c :: rest else c :: Memory.insert a b rest

/-- Lists nothing at an address. -/
def Memory.erase (a : Nat) (m : List Host.Cell) : List Host.Cell := m.filter (fun c => decide (c.1 ≠ a))

/-- Replaces one byte and keeps the canonical form: a byte equal to what an unlisted address reads as is not listed. -/
def Memory.write (rom : Config.GlyphRom) (m : List Host.Cell) (a : Nat) (b : Byte) : List Host.Cell :=
  if b = Memory.unlisted rom a then Memory.erase a m else Memory.insert a b (Memory.erase a m)

/-- The canonical form: addresses strictly rising and inside the address space, no entry equal to what its
address reads as when unlisted. -/
abbrev Memory.wf (rom : Config.GlyphRom) (m : List Host.Cell) : Prop :=
  m.Pairwise (fun c d => c.1 < d.1) ∧ ∀ c ∈ m, c.1 < Config.memSize ∧ c.2 ≠ Memory.unlisted rom c.1

/-- `MemRead(addr, 1)`: every address is masked to 12 bits at the access (R13, R51, R52). -/
def State.memRead (s : State) (addr : Nat) : Byte := Memory.read s.glyphRom s.mem (addr % Config.memSize)

/-- `MemWrite(addr, 1, b)` (R13, R51, R52). -/
def State.memWrite (s : State) (addr : Nat) (b : Byte) : State :=
  { s with mem := Memory.write s.glyphRom s.mem (addr % Config.memSize) b }

/-- `Fetch16(pc)`: two bytes, the first one high (R13, R55, R57). -/
def State.fetch (s : State) : Word := wordOfBytes (s.memRead s.pc.toNat) (s.memRead (s.pc.toNat + 1))

/-- Bytes written at rising addresses. -/
def State.writeBytes (s : State) (addr : Nat) : List Byte → State
  | [] => s
  | b :: rest => State.writeBytes (s.memWrite addr b) (addr + 1) rest

/-! ## General registers (R20) -/

/-- `V[r]`. -/
def State.getV (s : State) (r : Reg) : Byte := s.v[r.val]

/-- `V[r] <- b`. -/
def State.setV (s : State) (r : Reg) (b : Byte) : State := { s with v := s.v.set r.val b }

/-- Writes the result to Vx and then the flag to VF, so that the flag is what VF holds when x = 0xF (R22, R132;
the spec's decision D7). -/
def State.setWithFlag (s : State) (x : Reg) (result flag : Byte) : State :=
  (s.setV x result).setV Reg.flag flag

/-! ## The program counter (R16, R24, R100) -/

/-- Every write to the pc and to I keeps the low 12 bits (R23, R24). -/
def mask12 (a : Word) : Word := a &&& 0x0FFF#16

/-- `next = (pc + 2) & 0xFFF`. -/
def State.nextPc (s : State) : Word := mask12 (s.pc + 2)

/-- `skip = (pc + 4) & 0xFFF`. -/
def State.skipPc (s : State) : Word := mask12 (s.pc + 4)

/-- `pc <- target & 0xFFF`. -/
def State.goto (s : State) (target : Word) : State := { s with pc := mask12 target }

/-- `pc <- next`. -/
def State.advance (s : State) : State := { s with pc := s.nextPc }

/-- `if c then pc <- skip else pc <- next`. -/
def State.skipIf (s : State) (c : Bool) : State := { s with pc := if c then s.skipPc else s.nextPc }

/-! ## The call stack (R14, R27, R28) -/

/-- `Push(a)`: nothing when SP = 16. -/
def State.push (s : State) (a : Word) : Option State :=
  if h : s.sp.val < 16 then
    some { s with stk := s.stk.set s.sp.val a, sp := ⟨s.sp.val + 1, by omega⟩ }
  else none

/-- `Pop()`: nothing when SP = 0; a popped slot keeps its value. -/
def State.pop (s : State) : Option (Word × State) :=
  if h : 0 < s.sp.val then
    some (s.stk[s.sp.val - 1], { s with sp := ⟨s.sp.val - 1, by omega⟩ })
  else none

/-! ## The frame buffer (R29, R170) -/

/-- `FB[py][px]`. -/
def FrameBuffer.get (fb : FrameBuffer) (px : Fin 64) (py : Fin 32) : Bool := fb[py.val][px.val]

/-- `FB[py][px] <- FB[py][px] ^ bit`. -/
def FrameBuffer.xorPixel (fb : FrameBuffer) (px : Fin 64) (py : Fin 32) (bit : Bool) : FrameBuffer :=
  fb.set py.val (fb[py.val].set px.val (fb[py.val][px.val] ^^ bit))

/-- The row-major snapshot the renderer sees: pixel (px, py) at index `py * 64 + px` (R29, R241). -/
def State.snapshot (s : State) : List Bool := (s.fb.toList.map Vector.toList).flatten

/-! ## Faults (R206, R207)

There is no return from a fault: the machine has no handler and no trap return, and FAULTED is left only by the
host's unload and reset (R209), which stand in Events.lean. -/

/-- Taking a fault, the one operation all three kinds share: no write of the instruction is performed, the pc still
holds the faulting instruction's address, `FAULT <- (kind, w, pc)` and `RS <- FAULTED` (R15, R206). -/
def State.raiseFault (s : State) (kind : FaultKind) (w : Word) : State :=
  { s with fault := some ⟨kind, w, s.pc⟩, rs := .faulted }

/-- Executing an Unknown word: fatal under HALT; recorded and skipped under SKIP (R203, R207). -/
def State.invalidInstruction (s : State) (w : Word) : State :=
  match s.policy with
  | .halt => s.raiseFault .invalidInstruction w
  | .skip => { s with fault := some ⟨.invalidInstruction, w, s.pc⟩, pc := s.nextPc }

/-! ## Run state and placing an instruction -/

/-- The loaded flag of the source (R31). -/
def State.loaded (s : State) : Bool := s.rs ≠ .idle

/-- The run states in which a CPU step executes an instruction and a tick has its effect (R213, R243). -/
def RunState.active : RunState → Bool
  | .running | .waitKey => true
  | .idle | .faulted | .stopped => false

/-- A word stored where the fetch at the pc finds it (R55), in a machine that fetches: running, no other move due (log 9). -/
def State.placeWord (s : State) (w : Word) : State :=
  { s.writeBytes s.pc.toNat (bytesOfWord w) with
    rs := if s.rs.active then s.rs else .running
    schedule := [] }

end Sys2Proof.Machine
end

