-- ==== Sys2Proof/Machine/Operands.lean ====
section
/-! DEFINITION. The operand forms: low nibbles, addresses based at I, digits, register ranges, keys and sprite
coordinates (spec 40_control_flow.md to 44_keys_timers.md). -/

namespace Sys2Proof.Machine

/-- `v[3:0]`: a key or glyph number named by a register (R153, R180; the spec's decision D8). -/
def lowNibble (b : Byte) : Fin 16 := ⟨(b.extractLsb' 0 4).toNat, (b.extractLsb' 0 4).isLt⟩

/-- `I + k`, an unbounded number: the access masks it (R51, R150). -/
def State.dataAddr (s : State) (k : Nat) : Nat := s.i.toNat + k

/-- The address of the glyph of digit `d`: `5 * d` (R33, R153). -/
def glyphAddr (d : Fin 16) : Word := BitVec.ofNat 16 (5 * d.val)

/-- `V0 + nnn`, masked where it is written to the pc (R108). -/
def State.indexedTarget (s : State) (nnn : Word) : Word := (s.getV 0).setWidth 16 + nnn

/-- `I + Vx`, masked where it is written to I (R152). -/
def State.indexSum (s : State) (x : Reg) : Word := s.i + (s.getV x).setWidth 16

/-- A byte from a number below 256. -/
def byteOf (n : Nat) : Byte := BitVec.ofNat 8 n

/-- The hundreds, tens and ones digit of a byte, each in a byte of its own (R154). -/
def decimalDigits (b : Byte) : List Byte :=
  [byteOf (b.toNat / 100), byteOf (b.toNat / 10 % 10), byteOf (b.toNat % 10)]

/-- All register indices, in rising order. -/
def allRegs : List Reg := [0, 1, 2, 3, 4, 5, 6, 7, 8, 9, 10, 11, 12, 13, 14, 15]

/-- `for k = 0 to x`, inclusive (R155, R156). -/
def regsThrough (x : Reg) : List Reg := allRegs.take (x.val + 1)

/-- `KEY[k]` (R30). -/
def State.keyDown (s : State) (k : Fin 16) : Bool := s.key[k.val]

/-- The least pressed key of the snapshot, if any (R30, R184). -/
def State.lowestKey (s : State) : Option (Fin 16) := allRegs.find? s.keyDown

/-- The column of a sprite's column `c`: `(Vx + c) mod 64` (R173). -/
def pixelCol (ox : Byte) (c : Nat) : Fin 64 := ⟨(ox.toNat + c) % 64, Nat.mod_lt _ (by decide)⟩

/-- The row of a sprite's row `r`: `(Vy + r) mod 32` (R173). -/
def pixelRow (oy : Byte) (r : Nat) : Fin 32 := ⟨(oy.toNat + r) % 32, Nat.mod_lt _ (by decide)⟩

/-- Column `c` of a sprite row takes bit `b[7 - c]` (R174; the spec's decision D10). -/
def spriteBit (b : Byte) (c : Nat) : Bool := b.getLsbD (7 - c)

end Sys2Proof.Machine
end

