-- ==== Sys2Proof/Machine/Flags.lean ====
section
/-! DEFINITION. Every flag computation (spec 41_load_alu_random.md R120, R127 to R131; 43_display.md R172). -/

namespace Sys2Proof.Machine

/-- A flag as VF holds it: 1 or 0 (R21). -/
def flagByte (c : Bool) : Byte := if c then 1 else 0

/-- ADD: 1 iff the 9-bit sum exceeds 255 (R127). -/
def carryFlag (a b : Byte) : Byte := flagByte (decide (a.toNat + b.toNat > 255))

/-- SUB and SUBN: 1 iff minuend > subtrahend, strictly, so 0 on equal operands (R128, R130, 90_conflicts.md C5). -/
def greaterFlag (minuend subtrahend : Byte) : Byte := flagByte (decide (minuend.toNat > subtrahend.toNat))

/-- SHR: bit 0 before the shift (R129). -/
def lowBitFlag (a : Byte) : Byte := flagByte (a.getLsbD 0)

/-- SHL: bit 7 before the shift (R131). -/
def highBitFlag (a : Byte) : Byte := flagByte (a.getLsbD 7)

end Sys2Proof.Machine
end

