-- ==== Sys2Proof/Machine/Alu.lean ====
section
/-! DEFINITION. Register load, ALU and random (spec 41_load_alu_random.md R120 to R134). -/

namespace Sys2Proof.Machine

/-- 6xkk LD Vx, kk (R121). -/
def execLdImm (x : Reg) (kk : Byte) (s : State) : Host.Outcome State Fault Refusal :=
  .next (s.setV x kk).advance

/-- 7xkk ADD Vx, kk: no flag (R122). -/
def execAddImm (x : Reg) (kk : Byte) (s : State) : Host.Outcome State Fault Refusal :=
  .next (s.setV x (s.getV x + kk)).advance

/-- 8xy0 LD Vx, Vy (R123). -/
def execLdReg (x y : Reg) (s : State) : Host.Outcome State Fault Refusal :=
  .next (s.setV x (s.getV y)).advance

/-- 8xy1 OR Vx, Vy (R124). -/
def execOrReg (x y : Reg) (s : State) : Host.Outcome State Fault Refusal :=
  .next (s.setV x (s.getV x ||| s.getV y)).advance

/-- 8xy2 AND Vx, Vy (R125). -/
def execAndReg (x y : Reg) (s : State) : Host.Outcome State Fault Refusal :=
  .next (s.setV x (s.getV x &&& s.getV y)).advance

/-- 8xy3 XOR Vx, Vy (R126). -/
def execXorReg (x y : Reg) (s : State) : Host.Outcome State Fault Refusal :=
  .next (s.setV x (s.getV x ^^^ s.getV y)).advance

/-- 8xy4 ADD Vx, Vy: carry out, no carry in (R127). -/
def execAddReg (x y : Reg) (s : State) : Host.Outcome State Fault Refusal :=
  .next (s.setWithFlag x (s.getV x + s.getV y) (carryFlag (s.getV x) (s.getV y))).advance

/-- 8xy5 SUB Vx, Vy (R128). -/
def execSubReg (x y : Reg) (s : State) : Host.Outcome State Fault Refusal :=
  .next (s.setWithFlag x (s.getV x - s.getV y) (greaterFlag (s.getV x) (s.getV y))).advance

/-- 8xy6 SHR Vx: `y` is ignored (R77, R129; the spec's decision D6). -/
def execShr (x _y : Reg) (s : State) : Host.Outcome State Fault Refusal :=
  .next (s.setWithFlag x (s.getV x >>> 1) (lowBitFlag (s.getV x))).advance

/-- 8xy7 SUBN Vx, Vy: Vy minus Vx into Vx (R130). -/
def execSubnReg (x y : Reg) (s : State) : Host.Outcome State Fault Refusal :=
  .next (s.setWithFlag x (s.getV y - s.getV x) (greaterFlag (s.getV y) (s.getV x))).advance

/-- 8xyE SHL Vx: `y` is ignored (R77, R131; the spec's decision D6). -/
def execShl (x _y : Reg) (s : State) : Host.Outcome State Fault Refusal :=
  .next (s.setWithFlag x (s.getV x <<< 1) (highBitFlag (s.getV x))).advance

/-- Cxkk RND Vx, kk: a fresh free byte under a mask (R134, decision D12; log 5). -/
def execRnd (x : Reg) (kk : Byte) (s : State) : Host.Outcome State Fault Refusal :=
  .next (({ s with draws := s.draws + 1 } : State).setV x (Config.freeRandom s.draws &&& kk)).advance

end Sys2Proof.Machine
end

