-- ==== Sys2Proof/Machine/Control.lean ====
section
/-! DEFINITION. Control transfer (spec 40_control_flow.md R100 to R109). -/

namespace Sys2Proof.Machine

/-- 00EE RET: `pc <- (Pop() + 2) & 0xFFF`, since CALL pushes its own address; StackUnderflow when SP = 0 (R101, R202). -/
def execRet (s : State) : Host.Outcome State Fault Refusal :=
  match s.pop with
  | some (a, t) => .next (t.goto (a + 2))
  | none => .next (s.raiseFault .stackUnderflow (encode .ret))

/-- 1nnn JP (R102). -/
def execJp (nnn : Word) (s : State) : Host.Outcome State Fault Refusal := .next (s.goto nnn)

/-- 2nnn CALL: pushes its own address, "not yet advanced"; StackOverflow when SP = 16 (R103, R201). -/
def execCall (nnn : Word) (s : State) : Host.Outcome State Fault Refusal :=
  match s.push s.pc with
  | some t => .next (t.goto nnn)
  | none => .next (s.raiseFault .stackOverflow (encode (.call nnn)))

/-- 3xkk SE Vx, kk (R104). -/
def execSeImm (x : Reg) (kk : Byte) (s : State) : Host.Outcome State Fault Refusal :=
  .next (s.skipIf (s.getV x == kk))

/-- 4xkk SNE Vx, kk (R105). -/
def execSneImm (x : Reg) (kk : Byte) (s : State) : Host.Outcome State Fault Refusal :=
  .next (s.skipIf (s.getV x != kk))

/-- 5xy0 SE Vx, Vy (R106). -/
def execSeReg (x y : Reg) (s : State) : Host.Outcome State Fault Refusal :=
  .next (s.skipIf (s.getV x == s.getV y))

/-- 9xy0 SNE Vx, Vy (R107). -/
def execSneReg (x y : Reg) (s : State) : Host.Outcome State Fault Refusal :=
  .next (s.skipIf (s.getV x != s.getV y))

/-- Bnnn JP V0, nnn (R108). -/
def execJpV0 (nnn : Word) (s : State) : Host.Outcome State Fault Refusal :=
  .next (s.goto (s.indexedTarget nnn))

end Sys2Proof.Machine
end

