-- ==== Sys2Proof/Machine/Display.lean ====
section
/-! DEFINITION. The frame-buffer instructions (spec 43_display.md R170 to R174). -/

namespace Sys2Proof.Machine

/-- 00E0 CLS (R171). -/
def execCls (s : State) : Host.Outcome State Fault Refusal :=
  .next ({ s with fb := FrameBuffer.blank } : State).advance

/-- One pixel of a sprite: the collision is tested before the XOR (R172). -/
def drawPixel (acc : FrameBuffer × Bool) (px : Fin 64) (py : Fin 32) (bit : Bool) : FrameBuffer × Bool :=
  (acc.1.xorPixel px py bit, acc.2 || (bit && acc.1.get px py))

/-- One row of a sprite: `for col = 0 to 7` (R172). -/
def drawRow (ox : Byte) (py : Fin 32) (b : Byte) (acc : FrameBuffer × Bool) : FrameBuffer × Bool :=
  (List.range 8).foldl (fun a c => drawPixel a (pixelCol ox c) py (spriteBit b c)) acc

/-- The sprite byte of row `r`: `MemRead(I + r, 1)` (R172). -/
def State.spriteByte (s : State) (r : Nat) : Byte := s.memRead (s.dataAddr r)

/-- The frame buffer and the collision after `n` rows drawn at (ox, oy): `for r = 0 to n - 1` (R172). -/
def State.drawSprite (s : State) (ox oy : Byte) (n : Nat) : FrameBuffer × Bool :=
  (List.range n).foldl (fun a r => drawRow ox (pixelRow oy r) (s.spriteByte r) a) (s.fb, false)

/-- Dxyn DRW Vx, Vy, n: the coordinates are read before VF is written, VF is always written (R172). -/
def execDrw (x y : Reg) (n : Fin 16) (s : State) : Host.Outcome State Fault Refusal :=
  let drawn := s.drawSprite (s.getV x) (s.getV y) n.val
  .next (({ s with fb := drawn.1 } : State).setV Reg.flag (flagByte drawn.2)).advance

end Sys2Proof.Machine
end

