-- ==== Sys2Proof/Machine/IndexMemory.lean ====
section
/-! DEFINITION. The index register and memory (spec 42_index_memory.md R150 to R158). -/

namespace Sys2Proof.Machine

/-- Annn LD I, nnn (R151). -/
def execLdI (nnn : Word) (s : State) : Host.Outcome State Fault Refusal :=
  .next ({ s with i := mask12 nnn } : State).advance

/-- Fx1E ADD I, Vx: no flag (R152). -/
def execAddI (x : Reg) (s : State) : Host.Outcome State Fault Refusal :=
  .next ({ s with i := mask12 (s.indexSum x) } : State).advance

/-- Fx29 LD F, Vx (R153). -/
def execLdF (x : Reg) (s : State) : Host.Outcome State Fault Refusal :=
  .next ({ s with i := glyphAddr (lowNibble (s.getV x)) } : State).advance

/-- Fx33 BCD Vx: hundreds, tens, ones at I, I + 1, I + 2 (R154). -/
def execBcd (x : Reg) (s : State) : Host.Outcome State Fault Refusal :=
  .next (s.writeBytes (s.dataAddr 0) (decimalDigits (s.getV x))).advance

/-- V0 .. Vx to memory from I up (R155). -/
def State.storeRegs (s : State) (x : Reg) : State :=
  s.writeBytes (s.dataAddr 0) ((regsThrough x).map s.getV)

/-- Fx55 STORE Vx: I is not modified (R155, R158). -/
def execStore (x : Reg) (s : State) : Host.Outcome State Fault Refusal := .next (s.storeRegs x).advance

/-- Memory from I up to V0 .. Vx, every read from the memory of before (R156). -/
def State.loadRegs (s : State) (x : Reg) : State :=
  (regsThrough x).foldl (fun t k => t.setV k (s.memRead (s.dataAddr k.val))) s

/-- Fx65 READ Vx: I is not modified (R156, R158). -/
def execRead (x : Reg) (s : State) : Host.Outcome State Fault Refusal := .next (s.loadRegs x).advance

end Sys2Proof.Machine
end

