-- ==== Sys2Proof/Machine/KeysTimers.lean ====
section
/-! DEFINITION. Keys and timers (spec 44_keys_timers.md R180 to R186). -/

namespace Sys2Proof.Machine

/-- Ex9E SKP Vx (R181). -/
def execSkp (x : Reg) (s : State) : Host.Outcome State Fault Refusal :=
  .next (s.skipIf (s.keyDown (lowNibble (s.getV x))))

/-- ExA1 SKNP Vx (R182). -/
def execSknp (x : Reg) (s : State) : Host.Outcome State Fault Refusal :=
  .next (s.skipIf (!s.keyDown (lowNibble (s.getV x))))

/-- Fx07 LD Vx, DT (R183; the direction is the spec's decision D11). -/
def execLdVxDT (x : Reg) (s : State) : Host.Outcome State Fault Refusal :=
  .next (s.setV x s.dt).advance

/-- Fx0A LD Vx, K: the least pressed key, or WAIT_KEY with the pc left on this instruction (R184). -/
def execLdVxK (x : Reg) (s : State) : Host.Outcome State Fault Refusal :=
  match s.lowestKey with
  | some k => .next (({ s with rs := .running } : State).setV x (byteOf k.val)).advance
  | none => .next { s with rs := .waitKey }

/-- Fx15 LD DT, Vx (R185; the direction is the spec's decision D11). -/
def execLdDTVx (x : Reg) (s : State) : Host.Outcome State Fault Refusal :=
  .next ({ s with dt := s.getV x } : State).advance

/-- Fx18 LD ST, Vx (R186; the direction is the spec's decision D11). -/
def execLdSTVx (x : Reg) (s : State) : Host.Outcome State Fault Refusal :=
  .next ({ s with st := s.getV x } : State).advance

end Sys2Proof.Machine
end

