-- ==== Sys2Proof/Machine/Events.lean ====
section
/-! DEFINITION. The moves of the timer and the host (spec 60_exceptions.md R212, R213; 70_reset_and_hazards.md R230, R235 to R240). -/

namespace Sys2Proof.Machine

/-- One timer's countdown: "decrement is a no-op at 0" (R212). -/
def countDown (b : Byte) : Byte := if b = 0 then 0 else b - 1

/-- A tick: both timers while RUNNING or WAIT_KEY, nothing otherwise (R212, R213, R240). -/
def State.tick (s : State) : State :=
  if s.rs.active then { s with dt := countDown s.dt, st := countDown s.st } else s

/-- Load: only in IDLE; an image of more than 3584 bytes is reported and rejected; otherwise its bytes go to 0x200 and
up, the pc to 0x200 and the machine runs (R236). -/
def State.load (s : State) (image : List Byte) : State :=
  if s.rs ≠ .idle then s
  else if image.length > Config.progMax then { s with reports := s.reports ++ [.programTooLarge] }
  else { s.writeBytes Config.progBase image with pc := BitVec.ofNat 16 Config.progBase, rs := .running }

/-- Unload, in any run state: 0x050 to 0xFFF become zero, which is what they read as when unlisted, and RS becomes
IDLE; the glyph region is not restored (R237). -/
def State.unload (s : State) : State :=
  { s with mem := s.mem.filter (fun c => decide (c.1 < Config.glyphBytes)), rs := .idle }

/-- Stop: only from RUNNING or WAIT_KEY (R238). -/
def State.stop (s : State) : State := if s.rs.active then { s with rs := .stopped } else s

/-- The host sets KEY[k], in any run state (R239). -/
def State.setKey (s : State) (k : Fin 16) (pressed : Bool) : State := { s with key := s.key.set k.val pressed }

/-- Reset is construction: every piece of the spec's state takes its value of R37 (R230). The parameters, the moves
still to come, the draws used and the reports made are no state of the machine and stay. KEY: log 7. -/
def State.hostReset (s : State) : State :=
  { State.reset with
    policy := s.policy
    glyphRom := s.glyphRom
    draws := s.draws
    schedule := s.schedule
    reports := s.reports }

end Sys2Proof.Machine
end

