-- ==== Sys2Proof/Machine/Cycle.lean ====
section
/-! DEFINITION. One CPU step and one move of any agent (spec 70_reset_and_hazards.md R234, R242, R243). -/

namespace Sys2Proof.Machine

/-- Fetch, decode, execute; an Unknown word is an invalid instruction (R243). -/
def State.runInstruction (s : State) : Host.Outcome State Fault Refusal :=
  match decode s.fetch with
  | .instr i => exec i s
  | .reject _ => .next (s.invalidInstruction s.fetch)

/-- One CPU step: a reported no-op in IDLE, nothing in FAULTED or STOPPED, one instruction otherwise (R242, R243). -/
def State.cpuStep (s : State) : Host.Outcome State Fault Refusal :=
  match s.rs with
  | .idle => .next { s with reports := s.reports ++ [.noProgramLoaded] }
  | .faulted | .stopped => .next s
  | .running | .waitKey => s.runInstruction

/-- One move (R234, R235). -/
def State.move (s : State) : Event → Host.Outcome State Fault Refusal
  | .cpuStep => s.cpuStep
  | .tick => .next s.tick
  | .load image => .next (s.load image)
  | .unload => .next s.unload
  | .stop => .next s.stop
  | .setKey k pressed => .next (s.setKey k pressed)
  | .reset => .next s.hostReset

/-- The next move of the schedule, which is used up; a CPU step when none is scheduled (R214, R234; log 1). -/
def State.nextMove (s : State) : Host.Outcome State Fault Refusal :=
  match s.schedule with
  | [] => s.cpuStep
  | e :: rest => ({ s with schedule := rest } : State).move e

end Sys2Proof.Machine
end

