-- ==== Sys2Proof/Machine/Step.lean ====
section
/-! DEFINITION. The step of the machine, and a state that fetches a given word next. -/

namespace Sys2Proof.Machine

/-- One step: one move of one agent (spec 70_reset_and_hazards.md R234, R243). -/
def step (s : State) : Host.Outcome State Fault Refusal := s.nextMove

/-- The state with a table word placed where `step` fetches its next instruction: at the pc, in a machine that runs
with no other move due. It stands for the load of R236 (log 9). -/
def State.withFetchWord (s : State) (nbits w : Nat) : State := s.placeWord (tableWord nbits w)

end Sys2Proof.Machine
end

