-- ==== Sys2Proof/Safety.lean ====
section
/-! DEFINITION. The terms claims are stated in: which move is due, frames, and the invariants of a safe run. -/

namespace Sys2Proof.Machine

/-! ## The move that is due -/

/-- The move the next step makes (spec 70_reset_and_hazards.md R234). -/
def State.dueMove (s : State) : Event :=
  match s.schedule with
  | [] => .cpuStep
  | e :: _ => e

/-- The state a due move acts on: the move itself is used up. -/
def State.afterDue (s : State) : State := { s with schedule := s.schedule.tail }

/-! ## Frames -/

/-- Every byte of memory reads as before. -/
def SameMemory (s t : State) : Prop := ∀ a, t.memRead a = s.memRead a

/-- Every general register outside the list holds what it held. -/
def SameRegsBut (s t : State) (changed : List Reg) : Prop := ∀ r, r ∉ changed → t.getV r = s.getV r

/-- No field but the pc differs. -/
def OnlyPc (s t : State) : Prop := t = { s with pc := t.pc }

/-- No field but the general registers and the pc differs. -/
def OnlyRegs (s t : State) : Prop := t = { s with v := t.v, pc := t.pc }

/-- No field but memory and the pc differs. -/
def OnlyMem (s t : State) : Prop := t = { s with mem := t.mem, pc := t.pc }

/-- `pc <- (pc + 2) & 0xFFF` (spec 00_scope.md R16). -/
def Advances (s t : State) : Prop := t.pc.toNat = (s.pc.toNat + 2) % 4096

/-- `if c then pc <- skip else pc <- next` (spec 40_control_flow.md R100). -/
def SkipsWhen (c : Prop) (s t : State) : Prop :=
  (c → t.pc.toNat = (s.pc.toNat + 4) % 4096) ∧ (¬ c → t.pc.toNat = (s.pc.toNat + 2) % 4096)

/-! ## What an instruction may write -/

/-- The six instructions that overwrite VF as a flag (spec 10_state.md R21). -/
def writesFlag : Instr → Bool
  | .addReg _ _ | .subReg _ _ | .shr _ _ | .subnReg _ _ | .shl _ _ | .drw _ _ _ => true
  | .cls | .ret | .jp _ | .call _ | .ldI _ | .jpV0 _ => false
  | .seImm _ _ | .sneImm _ _ | .ldImm _ _ | .addImm _ _ | .rnd _ _ => false
  | .seReg _ _ | .sneReg _ _ | .ldReg _ _ | .orReg _ _ | .andReg _ _ | .xorReg _ _ => false
  | .skp _ | .sknp _ | .ldVxDT _ | .ldDTVx _ | .ldSTVx _ | .ldVxK _ => false
  | .addI _ | .ldF _ | .bcd _ | .store _ | .read _ => false

/-- Whether the instruction has register `r` as an ordinary destination: its x, or one of V0 .. Vx for Fx65 (R21). -/
def writesReg (r : Reg) : Instr → Bool
  | .ldImm x _ | .addImm x _ | .rnd x _ => r == x
  | .ldReg x _ | .orReg x _ | .andReg x _ | .xorReg x _ => r == x
  | .addReg x _ | .subReg x _ | .shr x _ | .subnReg x _ | .shl x _ => r == x
  | .ldVxDT x | .ldVxK x => r == x
  | .read x => decide (r ≤ x)
  | .cls | .ret | .jp _ | .call _ | .ldI _ | .jpV0 _ => false
  | .seImm _ _ | .sneImm _ _ | .seReg _ _ | .sneReg _ _ => false
  | .drw _ _ _ => false
  | .skp _ | .sknp _ | .ldDTVx _ | .ldSTVx _ | .addI _ | .ldF _ | .bcd _ | .store _ => false

/-- The instructions R24's table gives a pc of their own; all others end at the next word. -/
def setsPc : Instr → Bool
  | .ret | .jp _ | .call _ | .jpV0 _ => true
  | .seImm _ _ | .sneImm _ _ | .seReg _ _ | .sneReg _ _ | .skp _ | .sknp _ => true
  | .ldVxK _ => true
  | .cls | .ldI _ | .ldImm _ _ | .addImm _ _ | .rnd _ _ => false
  | .ldReg _ _ | .orReg _ _ | .andReg _ _ | .xorReg _ _ => false
  | .addReg _ _ | .subReg _ _ | .shr _ _ | .subnReg _ _ | .shl _ _ | .drw _ _ _ => false
  | .ldVxDT _ | .ldDTVx _ | .ldSTVx _ | .addI _ | .ldF _ | .bcd _ | .store _ | .read _ => false

/-- A CPU step in this state ends in a fatal fault: an Unknown word under HALT, CALL on a full stack, RET on an
empty one (spec 60_exceptions.md R201 to R203). -/
def State.fatalNext (s : State) : Prop :=
  ((∃ w, decode s.fetch = .reject (.unknown w)) ∧ s.policy = .halt) ∨
  ((∃ nnn, decode s.fetch = .instr (.call nnn)) ∧ s.sp.val = 16) ∨
  (decode s.fetch = .instr .ret ∧ s.sp.val = 0)

/-! ## Invariants of a safe run -/

/-- Memory is in its canonical form. -/
def State.memCanonical (s : State) : Prop := Memory.wf s.glyphRom s.mem

/-- Bits 15:12 of the pc, of I and of every stack slot are 0 (spec 10_state.md R23, R24; 40_control_flow.md R103). -/
def State.addressesMasked (s : State) : Prop :=
  s.pc.toNat < 4096 ∧ s.i.toNat < 4096 ∧ ∀ k : Fin 16, (s.stk[k.val]).toNat < 4096

/-- In WAIT_KEY the instruction at the pc is an Fx0A (spec 70_reset_and_hazards.md R244). -/
def State.waitsAtKeyWait (s : State) : Prop :=
  s.rs = .waitKey → ∃ x, decode s.fetch = .instr (.ldVxK x)

/-- What a record of each kind says of the machine that halted on it (spec 60_exceptions.md R201 to R203). -/
def State.haltedBy (s : State) : FaultKind → Prop
  | .stackOverflow => s.sp.val = 16 ∧ ∃ nnn, decode s.fetch = .instr (.call nnn)
  | .stackUnderflow => s.sp.val = 0 ∧ decode s.fetch = .instr .ret
  | .invalidInstruction => s.policy = .halt ∧ ∃ w, decode s.fetch = .reject (.unknown w)

/-- In FAULTED the record holds the word and the address of the instruction at the pc, which was not executed, and
a kind that this instruction raises in this state (R206). -/
def State.faultExplained (s : State) : Prop :=
  s.rs = .faulted → ∃ kind, s.fault = some ⟨kind, s.fetch, s.pc⟩ ∧ s.haltedBy kind

end Sys2Proof.Machine
end

