-- ==== Sys2Proof/Certificates/Slice0/Obligations.lean ====
section
/-! DEFINITION. The statements for the provers, from the spec's numbered rules. A docstring that names a decision D<n>
(spec 92_eei_decisions.md) says that the clause is the spec's own choice, not its source's; one that names a log entry
says that it is the model's (notes/assumptions). Every statement that speaks of the due move (`dueMove`, `afterDue`) rests
on the model's schedule (log 1), and one that speaks of `reports` on log 6. -/

open Sys2Proof Sys2Proof.Machine

/-! ## Encoding -/

/-- Decoding the encoding of a well-formed instruction gives it back, with every operand (R72, R74, R79). -/
def Obligations.DecodeInvertsEncode : Prop :=
  ∀ i : Instr, i.wellFormed = true → decode (encode i) = .instr i

/-- The six operand fields are the bit slices of R71: op = w[15:12], x = w[11:8], y = w[7:4], n = w[3:0], kk = w[7:0]
and nnn = w[11:0], as unsigned numbers; kk is y and n together, nnn is x, y and n together; of the two bytes of an
instruction the first holds op and x and the second is kk. -/
def Obligations.OperandFieldsAreSlices : Prop :=
  (∀ w : Word,
    fieldOp w = w.toNat / 4096 ∧ (fieldX w).val = w.toNat / 256 % 16 ∧ (fieldY w).val = w.toNat / 16 % 16 ∧
    (fieldN w).val = w.toNat % 16 ∧ (fieldKK w).toNat = w.toNat % 256 ∧ (fieldNNN w).toNat = w.toNat % 4096 ∧
    (fieldKK w).toNat = 16 * (fieldY w).val + (fieldN w).val ∧
    (fieldNNN w).toNat = 256 * (fieldX w).val + 16 * (fieldY w).val + (fieldN w).val) ∧
  (∀ hi lo : Byte,
    fieldOp (wordOfBytes hi lo) = hi.toNat / 16 ∧ (fieldX (wordOfBytes hi lo)).val = hi.toNat % 16 ∧
    fieldKK (wordOfBytes hi lo) = lo)

/-- Decoding then encoding returns the original word, and what the decoder gives is well formed (R79, R77 for the
ignored y of the shifts). -/
def Obligations.EncodeInvertsDecode : Prop :=
  ∀ (w : Word) (i : Instr), decode w = .instr i → i.wellFormed = true ∧ encode i = w

/-- Every word decodes to the first row of the opcode table whose condition `(w & mask) = match` holds, and to Unknown
when none does; the table has 34 rows, and no word meets the conditions of two of them (R74). -/
def Obligations.DecodeFollowsOpcodeTable : Prop :=
  opcodeTable.length = 34 ∧ (∀ w : Word, decode w =
    match opcodeTable.find? (fun r => r.holds w) with
    | some r => .instr (r.operands w)
    | none => .reject (.unknown w)) ∧
  (∀ (w : Word) (r q : OpcodeRow), r ∈ opcodeTable → q ∈ opcodeTable → r.holds w = true → q.holds w = true →
    r.pattern = q.pattern)

/-- The words that decode to Unknown are exactly those of the six families of R76, which the decoder rejects with
the raw word. -/
def Obligations.UnknownWordsAreExactly : Prop :=
  ∀ w : Word,
    ((∃ r, decode w = .reject r) → decode w = .reject (.unknown w)) ∧
    (decode w = .reject (.unknown w) ↔
      (w.toNat / 4096 = 0x0 ∧ w.toNat ≠ 0x00E0 ∧ w.toNat ≠ 0x00EE) ∨
      (w.toNat / 4096 = 0x5 ∧ w.toNat % 16 ≠ 0) ∨
      (w.toNat / 4096 = 0x8 ∧ 8 ≤ w.toNat % 16 ∧ w.toNat % 16 ≠ 14) ∨
      (w.toNat / 4096 = 0x9 ∧ w.toNat % 16 ≠ 0) ∨
      (w.toNat / 4096 = 0xE ∧ w.toNat % 256 ≠ 0x9E ∧ w.toNat % 256 ≠ 0xA1) ∨
      (w.toNat / 4096 = 0xF ∧
        w.toNat % 256 ∉ [0x07, 0x0A, 0x15, 0x18, 0x1E, 0x29, 0x33, 0x55, 0x65]))

/-- One word of each of the sixteen families op = 0 to F (R71), and the second word of family 0 and of family F,
written out from their encodings, decode to the instructions they stand for (R74). -/
def Obligations.SampleWordsDecode : Prop :=
  decode 0x00E0 = .instr .cls ∧ decode 0x00EE = .instr .ret ∧
  decode 0x1234 = .instr (.jp 0x234) ∧ decode 0x2FFF = .instr (.call 0xFFF) ∧
  decode 0x3A7F = .instr (.seImm 10 0x7F) ∧ decode 0x4B00 = .instr (.sneImm 11 0x00) ∧
  decode 0x5120 = .instr (.seReg 1 2) ∧ decode 0x6F01 = .instr (.ldImm 15 0x01) ∧
  decode 0x70FF = .instr (.addImm 0 0xFF) ∧ decode 0x8AB5 = .instr (.subReg 10 11) ∧
  decode 0x9120 = .instr (.sneReg 1 2) ∧ decode 0xA123 = .instr (.ldI 0x123) ∧
  decode 0xB300 = .instr (.jpV0 0x300) ∧ decode 0xC30F = .instr (.rnd 3 0x0F) ∧
  decode 0xD125 = .instr (.drw 1 2 5) ∧ decode 0xE49E = .instr (.skp 4) ∧
  decode 0xF21E = .instr (.addI 2) ∧ decode 0xF255 = .instr (.store 2)

/-! ## The step -/

/-- A CPU step in RUNNING or WAIT_KEY runs the instruction that the word at the pc decodes to (R243). That a CPU step
is due when the schedule is empty is the model's (log 1). -/
def Obligations.StepRunsDecodedInstruction : Prop :=
  ∀ (s : State) (i : Instr), s.dueMove = .cpuStep → (s.rs = .running ∨ s.rs = .waitKey) →
    decode s.fetch = .instr i → step s = exec i s.afterDue

/-- The fetched word is the byte at the pc and then the byte after it, both addresses masked to 12 bits (R51, R55, R57). -/
def Obligations.FetchIsBigEndian : Prop :=
  ∀ s : State, s.fetch.toNat = 256 * (s.memRead (s.pc.toNat % 4096)).toNat + (s.memRead ((s.pc.toNat + 1) % 4096)).toNat

/-- An Unknown word is fatal under HALT and is recorded and skipped under SKIP; in both cases nothing else changes
(R203, R206, R207; decisions D15, D16). -/
def Obligations.UnknownWordFaultsByPolicy : Prop :=
  ∀ s : State, s.dueMove = .cpuStep → (s.rs = .running ∨ s.rs = .waitKey) → decode s.fetch = .reject (.unknown s.fetch) →
    (s.policy = .halt →
      step s = .next { s.afterDue with fault := some ⟨.invalidInstruction, s.fetch, s.pc⟩, rs := .faulted }) ∧
    (s.policy = .skip → ∃ t, step s = .next t ∧ Advances s t ∧
      t = { s.afterDue with fault := some ⟨.invalidInstruction, s.fetch, s.pc⟩, pc := t.pc })

/-- With RS = IDLE a CPU step changes no state and reports NoProgramLoaded to the caller (R242; log 1 and
log 6 for the fields that say so). -/
def Obligations.IdleCpuStepReports : Prop :=
  ∀ s : State, s.dueMove = .cpuStep → s.rs = .idle →
    step s = .next { s.afterDue with reports := s.reports ++ [.noProgramLoaded] }

/-- FAULTED and STOPPED absorb CPU steps, ticks, stops and loads (R209, R238, R243, R244; decisions D15, D17). -/
def Obligations.HaltedAbsorbsMoves : Prop :=
  ∀ s : State, (s.rs = .faulted ∨ s.rs = .stopped) →
    (s.dueMove = .cpuStep ∨ s.dueMove = .tick ∨ s.dueMove = .stop ∨ ∃ image, s.dueMove = .load image) →
    step s = .next s.afterDue

/-- Every step of the machine, in any state, whatever move is due, answers a next state: there is no fault and no
refusal outside the state, since every fault of the spec is an entry the machine takes (R206, R207, R243). -/
def Obligations.StepAlwaysAnswers : Prop := ∀ s : State, ∃ t, step s = .next t

/-! ## Control transfer -/

/-- 1nnn: the words with op = 1 are JP with operand w[11:0]; the target is masked to its low 12 bits; nothing but the
pc is written (R102). -/
def Obligations.JumpSetsMaskedPc : Prop :=
  (∀ w : Word, w.toNat / 4096 = 1 → decode w = .instr (.jp (fieldNNN w))) ∧
  ∀ (nnn : Word) (s : State), ∃ t, exec (.jp nnn) s = .next t ∧
    t.pc.toNat = nnn.toNat % 4096 ∧ OnlyPc s t ∧ SameMemory s t

/-- Bnnn: the words with op = 0xB are JP V0 with operand w[11:0]; the target is V0 + nnn masked to 12 bits; nothing but
the pc is written (R108). -/
def Obligations.IndexedJumpAddsV0 : Prop :=
  (∀ w : Word, w.toNat / 4096 = 11 → decode w = .instr (.jpV0 (fieldNNN w))) ∧
  ∀ (nnn : Word) (s : State), ∃ t, exec (.jpV0 nnn) s = .next t ∧
    t.pc.toNat = ((s.getV 0).toNat + nnn.toNat) % 4096 ∧ OnlyPc s t ∧ SameMemory s t

/-- 2nnn with SP < 16 pushes the address of the CALL itself and jumps (R103, R28; decision D20 for the slot). -/
def Obligations.CallPushesOwnAddress : Prop :=
  ∀ (nnn : Word) (s : State) (k : Fin 16), k.val = s.sp.val → ∃ t, exec (.call nnn) s = .next t ∧
    t.pc.toNat = nnn.toNat % 4096 ∧ t.sp.val = s.sp.val + 1 ∧ t.stk[k.val] = s.pc ∧
    (∀ j : Fin 16, j ≠ k → t.stk[j.val] = s.stk[j.val]) ∧
    t = { s with pc := t.pc, sp := t.sp, stk := t.stk } ∧ SameMemory s t

/-- 00EE with SP > 0 pops and goes to the popped address plus 2, masked; the slot keeps its value
(R101, R28; 90_conflicts.md C2, decisions D2, D20). -/
def Obligations.ReturnPopsPastTheCall : Prop :=
  ∀ (s : State) (k : Fin 16), k.val + 1 = s.sp.val → ∃ t, exec .ret s = .next t ∧
    t.pc.toNat = ((s.stk[k.val]).toNat + 2) % 4096 ∧ t.sp.val = k.val ∧
    t = { s with pc := t.pc, sp := t.sp } ∧ SameMemory s t

/-- A CALL with SP = 16 raises StackOverflow with the CALL word and its address; nothing else changes
(R201, R206; decision D15). -/
def Obligations.CallOnFullStackFaults : Prop :=
  ∀ (nnn : Word) (s : State), s.sp.val = 16 → ∃ w : Word, w.toNat = 0x2000 + nnn.toNat % 4096 ∧
    exec (.call nnn) s = .next { s with fault := some ⟨.stackOverflow, w, s.pc⟩, rs := .faulted }

/-- A RET with SP = 0 raises StackUnderflow with the word 0x00EE and its address; nothing else changes
(R202, R206; decision D15). -/
def Obligations.ReturnOnEmptyStackFaults : Prop :=
  ∀ s : State, s.sp.val = 0 →
    exec .ret s = .next { s with fault := some ⟨.stackUnderflow, 0x00EE, s.pc⟩, rs := .faulted }

/-- 3xkk, 4xkk, 5xy0 and 9xy0 skip exactly when their comparison holds; nothing but the pc is written
(R100, R104 to R107; decision D2 for the mask of the advance). -/
def Obligations.RegisterSkipsFollowComparison : Prop :=
  ∀ (x y : Reg) (kk : Byte) (s : State),
    (∃ t, exec (.seImm x kk) s = .next t ∧ SkipsWhen (s.getV x = kk) s t ∧ OnlyPc s t ∧ SameMemory s t) ∧
    (∃ t, exec (.sneImm x kk) s = .next t ∧ SkipsWhen (s.getV x ≠ kk) s t ∧ OnlyPc s t ∧ SameMemory s t) ∧
    (∃ t, exec (.seReg x y) s = .next t ∧ SkipsWhen (s.getV x = s.getV y) s t ∧ OnlyPc s t ∧ SameMemory s t) ∧
    (∃ t, exec (.sneReg x y) s = .next t ∧ SkipsWhen (s.getV x ≠ s.getV y) s t ∧ OnlyPc s t ∧ SameMemory s t)

/-- Ex9E and ExA1 skip exactly when the key named by the low nibble of Vx is pressed, or not pressed; nothing but the
pc is written (R181, R182; decision D8 for the nibble, D2 for the mask). -/
def Obligations.KeySkipsFollowKeyState : Prop :=
  ∀ (x : Reg) (s : State) (k : Fin 16), k.val = (s.getV x).toNat % 16 →
    (∃ t, exec (.skp x) s = .next t ∧ SkipsWhen (s.key[k.val] = true) s t ∧ OnlyPc s t ∧ SameMemory s t) ∧
    (∃ t, exec (.sknp x) s = .next t ∧ SkipsWhen (s.key[k.val] = false) s t ∧ OnlyPc s t ∧ SameMemory s t)

/-- CALL and then RET, with SP and the stack as CALL left them, goes to the address after the CALL and restores SP
(R101, R103, source property S6). -/
def Obligations.CallThenReturnComesBack : Prop :=
  ∀ (nnn : Word) (s t u : State), s.sp.val < 16 → exec (.call nnn) s = .next t → u.sp = t.sp → u.stk = t.stk →
    ∃ r, exec .ret u = .next r ∧ Advances s r ∧ r.sp = s.sp

/-! ## Register load, ALU, random -/

/-- 6xkk, 7xkk and 8xy0: the destination receives kk, the sum modulo 256, or Vy; no flag is touched
(R121, R122, R123; decision D2 for the mask of the advance). -/
def Obligations.LoadsAndAddImmediate : Prop :=
  ∀ (x y : Reg) (kk : Byte) (s : State),
    (∃ t, exec (.ldImm x kk) s = .next t ∧ t.getV x = kk ∧
      SameRegsBut s t [x] ∧ Advances s t ∧ OnlyRegs s t ∧ SameMemory s t) ∧
    (∃ t, exec (.addImm x kk) s = .next t ∧ (t.getV x).toNat = ((s.getV x).toNat + kk.toNat) % 256 ∧
      SameRegsBut s t [x] ∧ Advances s t ∧ OnlyRegs s t ∧ SameMemory s t) ∧
    (∃ t, exec (.ldReg x y) s = .next t ∧ t.getV x = s.getV y ∧
      SameRegsBut s t [x] ∧ Advances s t ∧ OnlyRegs s t ∧ SameMemory s t)

/-- 8xy1, 8xy2 and 8xy3: bit k of Vx becomes the OR, AND or XOR of the two old bits; no flag is touched
(R124, R125, R126; decision D2 for the mask of the advance). -/
def Obligations.LogicIsBitwise : Prop :=
  ∀ (x y : Reg) (s : State),
    (∃ t, exec (.orReg x y) s = .next t ∧
      (∀ k, (t.getV x).getLsbD k = ((s.getV x).getLsbD k || (s.getV y).getLsbD k)) ∧
      SameRegsBut s t [x] ∧ Advances s t ∧ OnlyRegs s t ∧ SameMemory s t) ∧
    (∃ t, exec (.andReg x y) s = .next t ∧
      (∀ k, (t.getV x).getLsbD k = ((s.getV x).getLsbD k && (s.getV y).getLsbD k)) ∧
      SameRegsBut s t [x] ∧ Advances s t ∧ OnlyRegs s t ∧ SameMemory s t) ∧
    (∃ t, exec (.xorReg x y) s = .next t ∧
      (∀ k, (t.getV x).getLsbD k = ((s.getV x).getLsbD k != (s.getV y).getLsbD k)) ∧
      SameRegsBut s t [x] ∧ Advances s t ∧ OnlyRegs s t ∧ SameMemory s t)

/-- 8xy4: the sum modulo 256 in Vx and the carry in VF, which VF holds at the end even when x = 0xF
(R127; R132 and decision D7 for x = 0xF and y = 0xF, D2 for the mask). -/
def Obligations.AddSetsCarry : Prop :=
  ∀ (x y : Reg) (s : State), ∃ t, exec (.addReg x y) s = .next t ∧
    (x ≠ 15 → (t.getV x).toNat = ((s.getV x).toNat + (s.getV y).toNat) % 256) ∧
    t.getV 15 = (if (s.getV x).toNat + (s.getV y).toNat > 255 then 1 else 0) ∧
    SameRegsBut s t [x, 15] ∧ Advances s t ∧ OnlyRegs s t ∧ SameMemory s t

/-- 8xy5 and 8xy7: the difference modulo 256 in Vx and, in VF, 1 exactly when minuend > subtrahend, so 0 on equal
operands (R128, R130; decisions D23, D7, D2). -/
def Obligations.SubtractSetsStrictFlag : Prop :=
  ∀ (x y : Reg) (s : State),
    (∃ t, exec (.subReg x y) s = .next t ∧
      (x ≠ 15 → (t.getV x).toNat = ((s.getV x).toNat + 256 - (s.getV y).toNat) % 256) ∧
      t.getV 15 = (if (s.getV x).toNat > (s.getV y).toNat then 1 else 0) ∧
      SameRegsBut s t [x, 15] ∧ Advances s t ∧ OnlyRegs s t ∧ SameMemory s t) ∧
    (∃ t, exec (.subnReg x y) s = .next t ∧
      (x ≠ 15 → (t.getV x).toNat = ((s.getV y).toNat + 256 - (s.getV x).toNat) % 256) ∧
      t.getV 15 = (if (s.getV y).toNat > (s.getV x).toNat then 1 else 0) ∧
      SameRegsBut s t [x, 15] ∧ Advances s t ∧ OnlyRegs s t ∧ SameMemory s t)

/-- 8xy6 and 8xyE: Vx shifted by one in place and the bit shifted out in VF, whatever y is
(R129, R131; decisions D6, D7, D2). -/
def Obligations.ShiftsSetBitOut : Prop :=
  ∀ (x y : Reg) (s : State),
    (∃ t, exec (.shr x y) s = .next t ∧
      (x ≠ 15 → (t.getV x).toNat = (s.getV x).toNat / 2) ∧ (t.getV 15).toNat = (s.getV x).toNat % 2 ∧
      SameRegsBut s t [x, 15] ∧ Advances s t ∧ OnlyRegs s t ∧ SameMemory s t) ∧
    (∃ t, exec (.shl x y) s = .next t ∧
      (x ≠ 15 → (t.getV x).toNat = (s.getV x).toNat * 2 % 256) ∧ (t.getV 15).toNat = (s.getV x).toNat / 128 ∧
      SameRegsBut s t [x, 15] ∧ Advances s t ∧ OnlyRegs s t ∧ SameMemory s t)

/-- Cxkk: Vx becomes the drawn byte AND kk, whatever byte is drawn, and the next draw is a fresh one
(R134; decision D12; the byte is the free value of log 5). -/
def Obligations.RandomByteIsMasked : Prop :=
  ∀ (x : Reg) (kk : Byte) (s : State), ∃ t, exec (.rnd x kk) s = .next t ∧
    (∀ k, (t.getV x).getLsbD k = ((Config.freeRandom s.draws).getLsbD k && kk.getLsbD k)) ∧
    t.draws = s.draws + 1 ∧ SameRegsBut s t [x] ∧ Advances s t ∧
    t = { s with v := t.v, pc := t.pc, draws := t.draws } ∧ SameMemory s t

/-! ## Index register and memory -/

/-- Annn, Fx1E and Fx29: I becomes nnn, I + Vx masked, or the address of the glyph of the low nibble of Vx; no flag
and no register is touched (R151, R152, R153; decisions D5, D8, D9, D2). -/
def Obligations.IndexRegisterWrites : Prop :=
  ∀ (x : Reg) (nnn : Word) (s : State),
    (∃ t, exec (.ldI nnn) s = .next t ∧ t.i.toNat = nnn.toNat % 4096 ∧ Advances s t ∧
      t = { s with i := t.i, pc := t.pc } ∧ SameMemory s t) ∧
    (∃ t, exec (.addI x) s = .next t ∧ t.i.toNat = (s.i.toNat + (s.getV x).toNat) % 4096 ∧ Advances s t ∧
      t = { s with i := t.i, pc := t.pc } ∧ SameMemory s t) ∧
    (∃ t, exec (.ldF x) s = .next t ∧ t.i.toNat = 5 * ((s.getV x).toNat % 16) ∧ Advances s t ∧
      t = { s with i := t.i, pc := t.pc } ∧ SameMemory s t)

/-- Fx33: the hundreds, tens and ones digits of Vx at I, I + 1 and I + 2, masked, and no other byte
(R154, R51; decision D2 for the mask of the advance). -/
def Obligations.BcdStoresThreeDigits : Prop :=
  ∀ (x : Reg) (s : State), ∃ t, exec (.bcd x) s = .next t ∧
    (t.memRead (s.dataAddr 0)).toNat = (s.getV x).toNat / 100 ∧
    (t.memRead (s.dataAddr 1)).toNat = (s.getV x).toNat / 10 % 10 ∧
    (t.memRead (s.dataAddr 2)).toNat = (s.getV x).toNat % 10 ∧
    (∀ a, (∀ k, k < 3 → a % 4096 ≠ s.dataAddr k % 4096) → t.memRead a = s.memRead a) ∧
    Advances s t ∧ OnlyMem s t

/-- Fx55: V0 .. Vx at I .. I + x, masked, and no other byte; I is not modified
(R155, R158, R51; decision D2 for the mask of the advance). -/
def Obligations.StoreWritesRegisterRange : Prop :=
  ∀ (x : Reg) (s : State), ∃ t, exec (.store x) s = .next t ∧
    (∀ k : Reg, k ≤ x → t.memRead (s.dataAddr k.val) = s.getV k) ∧
    (∀ a, (∀ k : Reg, k ≤ x → a % 4096 ≠ s.dataAddr k.val % 4096) → t.memRead a = s.memRead a) ∧
    Advances s t ∧ OnlyMem s t

/-- Fx65: V0 .. Vx from I .. I + x, masked; registers above Vx, I and memory keep their values
(R156, R158, R51; decision D2 for the mask of the advance). -/
def Obligations.ReadLoadsRegisterRange : Prop :=
  ∀ (x : Reg) (s : State), ∃ t, exec (.read x) s = .next t ∧
    (∀ k : Reg, k ≤ x → t.getV k = s.memRead (s.dataAddr k.val)) ∧
    (∀ k : Reg, x < k → t.getV k = s.getV k) ∧
    Advances s t ∧ OnlyRegs s t ∧ SameMemory s t

/-- Storing V0 .. Vx and then, whatever the registers hold meanwhile, loading V0 .. Vx from the same I restores them
(R155, R156, R158, source property S9). -/
def Obligations.StoreThenReadRestores : Prop :=
  ∀ (x : Reg) (s t u : State), exec (.store x) s = .next t → u.i = t.i → SameMemory t u →
    ∃ r, exec (.read x) u = .next r ∧ ∀ k : Reg, k ≤ x → r.getV k = s.getV k

/-- `MemWrite` changes exactly one byte, whose address is masked to 12 bits, and nothing else of the machine;
`MemRead` returns the stored byte of the masked address (R52). -/
def Obligations.MemWriteChangesOneByte : Prop :=
  ∀ (s : State) (a b : Nat) (v : Byte),
    (s.memWrite a v).memRead b = (if b % 4096 = a % 4096 then v else s.memRead b) ∧
    s.memRead b = s.memRead (b % 4096) ∧
    s.memWrite a v = { s with mem := (s.memWrite a v).mem }

/-! ## Display -/

/-- 00E0: every pixel is 0; registers, I, memory, stack and timers are untouched (R171; decision D2 for the mask). -/
def Obligations.ClearBlanksEveryPixel : Prop :=
  ∀ s : State, ∃ t, exec .cls s = .next t ∧ (∀ px py, t.fb.get px py = false) ∧ Advances s t ∧
    t = { s with fb := t.fb, pc := t.pc } ∧ SameMemory s t

/-- Dxyn: the pixel of sprite row r and column c, at ((Vx + c) mod 64, (Vy + r) mod 32), is XORed with bit 7 - c of the
byte at I + r, every other pixel keeps its value, and nothing but FB, VF and the pc is written
(R172, R173, R174; decisions D10, D7, D26, D2). -/
def Obligations.DrawXorsSpritePixels : Prop :=
  ∀ (x y : Reg) (n : Fin 16) (s : State), ∃ t, exec (.drw x y n) s = .next t ∧
    (∀ (r c : Nat) (px : Fin 64) (py : Fin 32), r < n.val → c < 8 →
      px.val = ((s.getV x).toNat + c) % 64 → py.val = ((s.getV y).toNat + r) % 32 →
      t.fb.get px py = (s.fb.get px py != (s.memRead (s.dataAddr r)).getLsbD (7 - c))) ∧
    (∀ (px : Fin 64) (py : Fin 32),
      (∀ r c : Nat, r < n.val → c < 8 →
        px.val ≠ ((s.getV x).toNat + c) % 64 ∨ py.val ≠ ((s.getV y).toNat + r) % 32) →
      t.fb.get px py = s.fb.get px py) ∧
    SameRegsBut s t [15] ∧ Advances s t ∧
    t = { s with fb := t.fb, v := t.v, pc := t.pc } ∧ SameMemory s t

/-- Dxyn: VF is 1 iff at least one target pixel was already set where a sprite bit is also set, evaluated before
mutation, and 0 otherwise (R172; decisions D10, D26). -/
def Obligations.DrawFlagIsCollision : Prop :=
  ∀ (x y : Reg) (n : Fin 16) (s t : State), exec (.drw x y n) s = .next t →
    ((∃ (r c : Nat) (px : Fin 64) (py : Fin 32), r < n.val ∧ c < 8 ∧
        px.val = ((s.getV x).toNat + c) % 64 ∧ py.val = ((s.getV y).toNat + r) % 32 ∧
        (s.memRead (s.dataAddr r)).getLsbD (7 - c) = true ∧ s.fb.get px py = true) →
      t.getV 15 = 1) ∧
    ((∀ (r c : Nat) (px : Fin 64) (py : Fin 32), r < n.val → c < 8 →
        px.val = ((s.getV x).toNat + c) % 64 → py.val = ((s.getV y).toNat + r) % 32 →
        (s.memRead (s.dataAddr r)).getLsbD (7 - c) = true → s.fb.get px py = false) →
      t.getV 15 = 0)

/-- Drawing the same sprite at the same location twice returns the frame buffer to its prior state (R172 f). -/
def Obligations.DrawTwiceRestores : Prop :=
  ∀ (x y : Reg) (n : Fin 16) (s t u r : State), exec (.drw x y n) s = .next t →
    u.fb = t.fb → u.i = s.i → SameMemory s u → u.getV x = s.getV x → u.getV y = s.getV y →
    exec (.drw x y n) u = .next r → r.fb = s.fb

/-! ## Keys and timers -/

/-- Fx07, Fx15 and Fx18 move DT to Vx, Vx to DT and Vx to ST (R183, R185, R186; decision D11, which the spec took from
general knowledge, and D2). -/
def Obligations.TimerMoves : Prop :=
  ∀ (x : Reg) (s : State),
    (∃ t, exec (.ldVxDT x) s = .next t ∧ t.getV x = s.dt ∧ SameRegsBut s t [x] ∧ Advances s t ∧
      OnlyRegs s t ∧ SameMemory s t) ∧
    (∃ t, exec (.ldDTVx x) s = .next t ∧ t.dt = s.getV x ∧ Advances s t ∧
      t = { s with dt := t.dt, pc := t.pc } ∧ SameMemory s t) ∧
    (∃ t, exec (.ldSTVx x) s = .next t ∧ t.st = s.getV x ∧ Advances s t ∧
      t = { s with st := t.st, pc := t.pc } ∧ SameMemory s t)

/-- Fx0A with some key pressed stores the least pressed key in Vx, and the machine is RUNNING
(R184; decision D24, and D2 for the mask of the advance). -/
def Obligations.KeyWaitTakesLeastKey : Prop :=
  ∀ (x : Reg) (s : State) (k : Fin 16), s.key[k.val] = true → (∀ j : Fin 16, j < k → s.key[j.val] = false) →
    ∃ t, exec (.ldVxK x) s = .next t ∧ (t.getV x).toNat = k.val ∧ t.rs = .running ∧
      SameRegsBut s t [x] ∧ Advances s t ∧ t = { s with v := t.v, rs := t.rs, pc := t.pc } ∧ SameMemory s t

/-- Fx0A with no key pressed suspends the machine: RS becomes WAIT_KEY, the pc does not advance and nothing else
changes (R184, R218; decision D24). -/
def Obligations.KeyWaitSuspends : Prop :=
  ∀ (x : Reg) (s : State), (∀ j : Fin 16, s.key[j.val] = false) → exec (.ldVxK x) s = .next { s with rs := .waitKey }

/-! ## What instructions may write -/

/-- A register changes only if it is the instruction's own destination, or VF and the instruction is one of the six
that write it as a flag; each of those leaves VF 0 or 1 (R21; decision D7). -/
def Obligations.RegisterWritersComplete : Prop :=
  ∀ (i : Instr) (s t : State), exec i s = .next t →
    (∀ r : Reg, writesReg r i = false → ¬ (r = 15 ∧ writesFlag i = true) → t.getV r = s.getV r) ∧
    (writesFlag i = true → t.getV 15 = 0 ∨ t.getV 15 = 1)

/-- The frame buffer is written only by 00E0 and Dxyn, the stack only by 2nnn and 00EE, DT only by Fx15, ST only by
Fx18, I only by Annn, Fx1E and Fx29, memory only by Fx33 and Fx55, and KEY by no instruction (R23, R30, R54, R59). -/
def Obligations.StateWritersComplete : Prop :=
  ∀ (i : Instr) (s t : State), exec i s = .next t →
    (i ≠ .cls → (∀ x y n, i ≠ .drw x y n) → t.fb = s.fb) ∧
    (i ≠ .ret → (∀ nnn, i ≠ .call nnn) → t.sp = s.sp) ∧
    ((∀ nnn, i ≠ .call nnn) → t.stk = s.stk) ∧
    ((∀ x, i ≠ .ldDTVx x) → t.dt = s.dt) ∧
    ((∀ x, i ≠ .ldSTVx x) → t.st = s.st) ∧
    ((∀ nnn, i ≠ .ldI nnn) → (∀ x, i ≠ .addI x) → (∀ x, i ≠ .ldF x) → t.i = s.i) ∧
    ((∀ x, i ≠ .bcd x) → (∀ x, i ≠ .store x) → SameMemory s t) ∧
    t.key = s.key

/-- No instruction writes the parameters, the moves to come or the reports; only Cxkk draws a random byte; RS and FAULT
are written only by Fx0A (RS) and by a stack fault (R31, R32, R35; log 1, log 3 to log 6 for the model's own fields). -/
def Obligations.ControlStateWritersComplete : Prop :=
  ∀ (i : Instr) (s t : State), exec i s = .next t →
    t.policy = s.policy ∧ t.glyphRom = s.glyphRom ∧ t.schedule = s.schedule ∧ t.reports = s.reports ∧
    ((∀ x kk, i ≠ .rnd x kk) → t.draws = s.draws) ∧
    ((∀ x, i ≠ .ldVxK x) → t.rs = s.rs ∧ t.fault = s.fault ∨ t.rs = .faulted ∧ t.fault ≠ none) ∧
    ((∀ x, i ≠ .ldVxK x) → (∀ nnn, i ≠ .call nnn) → i ≠ .ret → t.rs = s.rs ∧ t.fault = s.fault)

/-- Every instruction that R24's table gives no pc of its own ends with `pc <- (pc + 2) & 0xFFF` (R24, R100; decision D2). -/
def Obligations.OtherInstructionsAdvance : Prop :=
  ∀ (i : Instr) (s t : State), setsPc i = false → exec i s = .next t → Advances s t

/-! ## The timer and the host -/

/-- A tick while RUNNING or WAIT_KEY counts both timers down, a no-op at 0, and touches nothing else; in any other run
state it has no effect (R212; R213 and decision D18 for the run states). -/
def Obligations.TickCountsDown : Prop :=
  ∀ s : State, s.dueMove = .tick →
    ((s.rs = .running ∨ s.rs = .waitKey) → ∃ t, step s = .next t ∧
      t.dt.toNat = s.dt.toNat - 1 ∧ t.st.toNat = s.st.toNat - 1 ∧
      t = { s.afterDue with dt := t.dt, st := t.st }) ∧
    ((s.rs = .idle ∨ s.rs = .faulted ∨ s.rs = .stopped) → step s = .next s.afterDue)

/-- A load of at most 3584 bytes in IDLE stores the image at 0x200 and up, changes no other byte, sets pc = 0x200 and
makes the machine RUNNING; nothing else changes (R236). -/
def Obligations.LoadStoresImage : Prop :=
  ∀ (s : State) (image : List Byte), s.dueMove = .load image → s.rs = .idle → image.length ≤ 3584 →
    ∃ t, step s = .next t ∧
      (∀ (k : Nat) (h : k < image.length), t.memRead (0x200 + k) = image[k]) ∧
      (∀ a, a < 4096 → (a < 0x200 ∨ 0x200 + image.length ≤ a) → t.memRead a = s.memRead a) ∧
      t.pc = 0x200 ∧ t.rs = .running ∧ t = { s.afterDue with mem := t.mem, pc := t.pc, rs := t.rs }

/-- A load of more than 3584 bytes is reported as ProgramTooLarge and rejected; a load outside IDLE is refused; neither
changes any state (R236, R204; decision D19 for the second). -/
def Obligations.LoadRejectedHasNoEffect : Prop :=
  ∀ (s : State) (image : List Byte), s.dueMove = .load image →
    (s.rs = .idle → 3584 < image.length →
      step s = .next { s.afterDue with reports := s.reports ++ [.programTooLarge] }) ∧
    (s.rs ≠ .idle → step s = .next s.afterDue)

/-- Unload, in any run state: 0x050 to 0xFFF become 0x00, 0x000 to 0x04F and everything else keep their values, and RS
becomes IDLE (R237; decision D19). -/
def Obligations.UnloadClearsAboveGlyphs : Prop :=
  ∀ s : State, s.dueMove = .unload → ∃ t, step s = .next t ∧
    (∀ a, a < 4096 → t.memRead a = if a < 0x050 then s.memRead a else 0) ∧
    t = { s.afterDue with mem := t.mem, rs := .idle }

/-- Stop sets STOPPED from RUNNING and WAIT_KEY; setting a key, in any run state, changes that key and nothing else
(R238, R239; decision D17). -/
def Obligations.StopAndKeyMoves : Prop :=
  ∀ s : State,
    (s.dueMove = .stop → (s.rs = .running ∨ s.rs = .waitKey) → step s = .next { s.afterDue with rs := .stopped }) ∧
    (s.dueMove = .stop → s.rs = .idle → step s = .next s.afterDue) ∧
    (∀ (k : Fin 16) (pressed : Bool), s.dueMove = .setKey k pressed → ∃ t, step s = .next t ∧
      t.key[k.val] = pressed ∧ (∀ j : Fin 16, j ≠ k → t.key[j.val] = s.key[j.val]) ∧
      t = { s.afterDue with key := t.key })

/-- A host reset in any run state leaves every piece of the spec's state at its value of R37: registers, timers, SP and
stack 0, memory GLYPH_ROM and then zeros, no pixel lit, no key pressed, IDLE, no fault record (R37, R230; decisions D9,
D13; log 7 for KEY). The parameters, the moves to come, the draws and the reports stay (log 1, log 3 to log 6). -/
def Obligations.HostResetConstructs : Prop :=
  ∀ s : State, s.dueMove = .reset → ∃ t, step s = .next t ∧
    (∀ r, t.getV r = 0) ∧ t.i = 0 ∧ t.pc = 0 ∧ t.dt = 0 ∧ t.st = 0 ∧ t.sp = 0 ∧
    (∀ k : Fin 16, t.stk[k.val] = 0) ∧
    (∀ (a : Nat) (h : a < 80), t.memRead a = s.glyphRom[a]) ∧ (∀ a, 80 ≤ a → a < 4096 → t.memRead a = 0) ∧
    (∀ px py, t.fb.get px py = false) ∧ (∀ k : Fin 16, t.key[k.val] = false) ∧ t.rs = .idle ∧ t.fault = none ∧
    t.policy = s.policy ∧ t.glyphRom = s.glyphRom ∧ t.draws = s.draws ∧ t.schedule = s.schedule.tail ∧
    t.reports = s.reports

/-- The transitions of RS by a move other than a CPU step (R244; decision D17). -/
def Obligations.RunStateByHostMoves : Prop :=
  ∀ s t : State, step s = .next t →
    (s.dueMove = .reset ∨ s.dueMove = .unload → t.rs = .idle) ∧
    (∀ image, s.dueMove = .load image → t.rs = if s.rs = .idle ∧ image.length ≤ 3584 then .running else s.rs) ∧
    (s.dueMove = .stop → t.rs = if s.rs = .running ∨ s.rs = .waitKey then .stopped else s.rs) ∧
    (s.dueMove = .tick ∨ (∃ k pressed, s.dueMove = .setKey k pressed) → t.rs = s.rs)

/-- The transitions of RS by a CPU step: IDLE, FAULTED and STOPPED stay; an Fx0A gives WAIT_KEY or RUNNING; a fatal fault
gives FAULTED; anything else leaves RS (R244; decision D17). -/
def Obligations.RunStateByCpuStep : Prop :=
  ∀ s t : State, s.dueMove = .cpuStep → step s = .next t →
    (s.rs = .idle ∨ s.rs = .faulted ∨ s.rs = .stopped → t.rs = s.rs) ∧
    (s.rs = .running ∨ s.rs = .waitKey →
      (s.fatalNext → t.rs = .faulted) ∧
      ((∃ x, decode s.fetch = .instr (.ldVxK x)) →
        ((∀ k : Fin 16, s.key[k.val] = false) → t.rs = .waitKey) ∧
        ((∃ k : Fin 16, s.key[k.val] = true) → t.rs = .running)) ∧
      (¬ s.fatalNext → (∀ x, decode s.fetch ≠ .instr (.ldVxK x)) → t.rs = s.rs))

/-- The snapshot is the whole 64 by 32 grid in row-major order: pixel (px, py) at index py * 64 + px (R29, R241). -/
def Obligations.SnapshotIsRowMajor : Prop :=
  ∀ s : State, s.snapshot.length = 2048 ∧
    ∀ (px : Fin 64) (py : Fin 32), s.snapshot[py.val * 64 + px.val]? = some (s.fb.get px py)

/-! ## Invariants -/

/-- No step of any agent changes the parameters INVALID_POLICY and GLYPH_ROM, and every step uses up the move that was
due (R10, R35; log 1, log 3 and log 4). -/
def Obligations.StepKeepsParameters : Prop :=
  ∀ s t : State, step s = .next t →
    t.policy = s.policy ∧ t.glyphRom = s.glyphRom ∧ t.schedule = s.schedule.tail

/-- Every step of any agent keeps memory in its canonical form. -/
def Obligations.StepKeepsMemoryCanonical : Prop :=
  ∀ s t : State, s.memCanonical → step s = .next t → t.memCanonical

/-- Every step keeps bits 15:12 of the pc, of I and of the stack slots 0 (R23, R24, R103; decisions D2, D5). -/
def Obligations.StepKeepsAddressesMasked : Prop :=
  ∀ s t : State, s.addressesMasked → step s = .next t → t.addressesMasked

/-- Every step keeps this: in WAIT_KEY the instruction at pc is an Fx0A (R244). -/
def Obligations.StepKeepsWaitAtKeyWait : Prop :=
  ∀ s t : State, s.waitsAtKeyWait → step s = .next t → t.waitsAtKeyWait

/-- Every step keeps this: in FAULTED the record holds the word at the pc and the pc, and a kind which that word raises
in this state, so that faults are precise (R201 to R203, R206; decision D15). -/
def Obligations.StepKeepsFaultExplained : Prop :=
  ∀ s t : State, s.faultExplained → step s = .next t → t.faultExplained

/-- The state after reset meets all four invariants. -/
def Obligations.ResetMeetsInvariants : Prop :=
  State.reset.memCanonical ∧ State.reset.addressesMasked ∧ State.reset.waitsAtKeyWait ∧ State.reset.faultExplained

/-- ST and the fault record flow into no other piece of state, nor into each other: two states that differ at most in
these two make steps whose results differ at most in these two, a relation on two states which every step keeps; where
they differ in ST alone the results differ at most in ST, and where in the fault record alone, at most in that
(R26, R32, R36). The tick does read ST, for ST itself (R212). -/
def Obligations.SoundTimerAndFaultUnread : Prop :=
  ∀ (s t : State) (b : Byte) (f : Option FaultRecord), step s = .next t →
    ∃ b' f', step { s with st := b, fault := f } = .next { t with st := b', fault := f' } ∧
      step { s with st := b } = .next { t with st := b' } ∧
      step { s with fault := f } = .next { t with fault := f' }
end

