-- ==== Sys2Proof/Laws/Decode.lean ====
section
/-! SUPPORT. The operand fields as arithmetic, the numbers that the encoding formats build, and the fetched word. -/

namespace Sys2Proof

/-! ## Fields of a word -/

theorem fieldOp_eq (w : Word) : fieldOp w = w.toNat / 4096 := by
  have := w.isLt
  simp only [fieldOp, BitVec.extractLsb'_toNat, Nat.shiftRight_eq_div_pow, Nat.reducePow]
  omega

theorem fieldX_val (w : Word) : (fieldX w).val = w.toNat / 256 % 16 := by
  simp [fieldX, BitVec.extractLsb'_toNat, Nat.shiftRight_eq_div_pow]

theorem fieldY_val (w : Word) : (fieldY w).val = w.toNat / 16 % 16 := by
  simp [fieldY, BitVec.extractLsb'_toNat, Nat.shiftRight_eq_div_pow]

theorem fieldN_val (w : Word) : (fieldN w).val = w.toNat % 16 := by
  simp [fieldN, BitVec.extractLsb'_toNat]

theorem fieldKK_toNat (w : Word) : (fieldKK w).toNat = w.toNat % 256 := by
  simp [fieldKK, BitVec.extractLsb'_toNat]

theorem fieldNNN_toNat (w : Word) : (fieldNNN w).toNat = w.toNat % 4096 := by
  simp only [fieldNNN, BitVec.toNat_setWidth, BitVec.extractLsb'_toNat, Nat.shiftRight_zero, Nat.reducePow]
  omega

theorem fieldOp_lt (w : Word) : fieldOp w < 16 := by
  rw [fieldOp_eq]; have := w.isLt; omega

/-! ## Numbers of encoded words -/

/-- OR of a number with one below it in disjoint bits is their sum. -/
theorem or_low {a b : Nat} (k : Nat) (hb : b < 2 ^ k) : (2 ^ k * a) ||| b = 2 ^ k * a + b :=
  (Nat.two_pow_add_eq_or_of_lt hb a).symm

theorem ofNat_toNat_reg (x : Fin 16) : (BitVec.ofNat 16 x.val).toNat = x.val := by
  have := x.isLt
  simp only [BitVec.toNat_ofNat]; omega

theorem shiftReg_toNat (x : Fin 16) (k : Nat) (hk : k ≤ 8) :
    (BitVec.ofNat 16 x.val <<< k).toNat = x.val * 2 ^ k := by
  rw [BitVec.toNat_shiftLeft, ofNat_toNat_reg, Nat.shiftLeft_eq]
  refine Nat.mod_eq_of_lt ?_
  calc x.val * 2 ^ k ≤ 15 * 2 ^ 8 := Nat.mul_le_mul (by have := x.isLt; omega) (Nat.pow_le_pow_right (by decide) hk)
    _ < 2 ^ 16 := by decide

theorem encodeA_toNat (op : Nat) (m nnn : Word) (hm : m.toNat = 4096 * op) :
    (encodeA m nnn).toNat = 4096 * op + nnn.toNat % 4096 := by
  have hmask : nnn.toNat &&& 4095 = nnn.toNat % 4096 := Nat.and_two_pow_sub_one_eq_mod _ 12
  have h := or_low (a := op) (b := nnn.toNat % 4096) 12 (Nat.mod_lt _ (by decide))
  simp only [encodeA, BitVec.toNat_or, BitVec.toNat_and, hm, BitVec.toNat_ofNat, Nat.reducePow, Nat.reduceMod, hmask]
  simpa using h

theorem encodeXK_toNat (op : Nat) (m : Word) (x : Reg) (kk : Byte) (hm : m.toNat = 4096 * op) :
    (encodeXK m x kk).toNat = 4096 * op + 256 * x.val + kk.toNat := by
  have hx := x.isLt
  have hk := kk.isLt
  have h1 := or_low (a := op) (b := x.val * 256) 12 (by omega)
  have h2 := or_low (a := 16 * op + x.val) (b := kk.toNat) 8 hk
  simp only [encodeXK, BitVec.toNat_or, hm, shiftReg_toNat x 8 (by decide), BitVec.toNat_setWidth, Nat.reducePow]
  simp only [Nat.reducePow] at h1 h2
  rw [h1, Nat.mod_eq_of_lt (by omega), show 4096 * op + x.val * 256 = 256 * (16 * op + x.val) by omega, h2]
  omega

theorem encodeX_toNat (op kk : Nat) (m : Word) (x : Reg) (hk : kk < 256) (hm : m.toNat = 4096 * op + kk) :
    (encodeX m x).toNat = 4096 * op + 256 * x.val + kk := by
  have hx := x.isLt
  have h1 := or_low (a := op) (b := x.val * 256) 12 (by omega)
  have h2 := or_low (a := 16 * op + x.val) (b := kk) 8 hk
  have h3 := or_low (a := op) (b := kk) 12 (by omega)
  simp only [Nat.reducePow] at h1 h2 h3
  simp only [encodeX, BitVec.toNat_or, hm, shiftReg_toNat x 8 (by decide), Nat.reducePow]
  rw [← h3, Nat.or_assoc, Nat.or_comm kk, ← Nat.or_assoc, h1,
    show 4096 * op + x.val * 256 = 256 * (16 * op + x.val) by omega, h2]
  omega

theorem encodeXYN_toNat (op : Nat) (m : Word) (x y : Reg) (n : Fin 16) (hm : m.toNat = 4096 * op) :
    (encodeXYN m x y n).toNat = 4096 * op + 256 * x.val + 16 * y.val + n.val := by
  have hx := x.isLt
  have hy := y.isLt
  have hn := n.isLt
  have h1 := or_low (a := op) (b := x.val * 256) 12 (by omega)
  have h2 := or_low (a := 16 * op + x.val) (b := y.val * 16) 8 (by omega)
  have h3 := or_low (a := 256 * op + 16 * x.val + y.val) (b := n.val) 4 (by omega)
  simp only [Nat.reducePow] at h1 h2 h3
  simp only [encodeXYN, BitVec.toNat_or, hm, shiftReg_toNat x 8 (by decide), shiftReg_toNat y 4 (by decide),
    ofNat_toNat_reg, Nat.reducePow]
  rw [h1, show 4096 * op + x.val * 256 = 256 * (16 * op + x.val) by omega, h2,
    show 256 * (16 * op + x.val) + y.val * 16 = 16 * (256 * op + 16 * x.val + y.val) by omega, h3]
  omega

theorem encodeXY_toNat (op n : Nat) (m : Word) (x y : Reg) (hn : n < 16) (hm : m.toNat = 4096 * op + n) :
    (encodeXY m x y).toNat = 4096 * op + 256 * x.val + 16 * y.val + n := by
  have hx := x.isLt
  have hy := y.isLt
  have h1 := or_low (a := op) (b := x.val * 256) 12 (by omega)
  have h2 := or_low (a := 16 * op + x.val) (b := y.val * 16) 8 (by omega)
  have h3 := or_low (a := 256 * op + 16 * x.val + y.val) (b := n) 4 (by omega)
  have h4 := or_low (a := op) (b := n) 12 (by omega)
  simp only [Nat.reducePow] at h1 h2 h3 h4
  simp only [encodeXY, BitVec.toNat_or, hm, shiftReg_toNat x 8 (by decide), shiftReg_toNat y 4 (by decide),
    Nat.reducePow]
  rw [← h4, Nat.or_assoc, Nat.or_assoc, Nat.or_comm n, ← Nat.or_assoc, ← Nat.or_assoc, h1,
    show 4096 * op + x.val * 256 = 256 * (16 * op + x.val) by omega, h2,
    show 256 * (16 * op + x.val) + y.val * 16 = 16 * (256 * op + 16 * x.val + y.val) by omega, h3]
  omega

/-! ## The table's masks (R74) -/

theorem and_F000_toNat (w : Word) : (w &&& 0xF000#16).toNat = 4096 * (w.toNat / 4096) := by
  have h : (w &&& 0xF000#16) = (w >>> 12) <<< 12 := by
    ext i hi
    interval_cases i <;> simp
  have := w.isLt
  rw [h, BitVec.toNat_shiftLeft, BitVec.toNat_ushiftRight, Nat.shiftRight_eq_div_pow, Nat.shiftLeft_eq]
  omega

theorem and_F00F_toNat (w : Word) : (w &&& 0xF00F#16).toNat = 4096 * (w.toNat / 4096) + w.toNat % 16 := by
  have h : (w &&& 0xF00F#16) = (w &&& 0xF000#16) ||| (w &&& 0x000F#16) := by
    ext i hi
    interval_cases i <;> simp
  have h2 : w.toNat &&& 15 = w.toNat % 16 := Nat.and_two_pow_sub_one_eq_mod _ 4
  rw [h, BitVec.toNat_or, and_F000_toNat, BitVec.toNat_and, BitVec.toNat_ofNat]
  simp only [Nat.reducePow, Nat.reduceMod, h2]
  exact or_low 12 (by omega)

theorem and_F0FF_toNat (w : Word) : (w &&& 0xF0FF#16).toNat = 4096 * (w.toNat / 4096) + w.toNat % 256 := by
  have h : (w &&& 0xF0FF#16) = (w &&& 0xF000#16) ||| (w &&& 0x00FF#16) := by
    ext i hi
    interval_cases i <;> simp
  have h2 : w.toNat &&& 255 = w.toNat % 256 := Nat.and_two_pow_sub_one_eq_mod _ 8
  rw [h, BitVec.toNat_or, and_F000_toNat, BitVec.toNat_and, BitVec.toNat_ofNat]
  simp only [Nat.reducePow, Nat.reduceMod, h2]
  exact or_low 12 (by omega)

theorem and_FFFF_toNat (w : Word) : (w &&& 0xFFFF#16).toNat = w.toNat := by
  have h : (w &&& 0xFFFF#16) = w := by
    ext i hi
    interval_cases i <;> simp
  rw [h]

/-- A row's condition as arithmetic. -/
theorem OpcodeRow.holds_eq (r : OpcodeRow) (w : Word) : r.holds w = decide ((w &&& r.mask).toNat = r.pat.toNat) := by
  rw [Bool.eq_iff_iff, decide_eq_true_iff, ← BitVec.toNat_eq]
  simp [OpcodeRow.holds]

/-! ## Bytes and words -/

/-- The byte at the lower address is the high one (R55). -/
theorem wordOfBytes_toNat (hi lo : Byte) : (wordOfBytes hi lo).toNat = 256 * hi.toNat + lo.toNat := by
  have h := or_low (a := hi.toNat) (b := lo.toNat) 8 lo.isLt
  simp only [wordOfBytes, BitVec.toNat_append, Nat.shiftLeft_eq]
  rw [Nat.mul_comm, h]
  rfl

/-- Storing a word's bytes and reading them back gives the word. -/
theorem wordOfBytes_bytes (w : Word) : wordOfBytes (w.extractLsb' 8 8) (w.extractLsb' 0 8) = w := by
  apply BitVec.eq_of_toNat_eq
  have := w.isLt
  rw [wordOfBytes_toNat]
  simp only [BitVec.extractLsb'_toNat, Nat.shiftRight_eq_div_pow, Nat.reducePow, Nat.pow_zero, Nat.div_one]
  omega

end Sys2Proof
end

