-- ==== Sys2Proof/Laws/State.lean ====
section
/-! SUPPORT. What each named update of the state leaves in each field, true by rfl, so that no proof unfolds an update. -/

namespace Sys2Proof.Machine

/-! ## setV -/

@[simp] theorem State.setV_i (s : State) (r : Reg) (b : Byte) : (s.setV r b).i = s.i := rfl
@[simp] theorem State.setV_pc (s : State) (r : Reg) (b : Byte) : (s.setV r b).pc = s.pc := rfl
@[simp] theorem State.setV_dt (s : State) (r : Reg) (b : Byte) : (s.setV r b).dt = s.dt := rfl
@[simp] theorem State.setV_st (s : State) (r : Reg) (b : Byte) : (s.setV r b).st = s.st := rfl
@[simp] theorem State.setV_stk (s : State) (r : Reg) (b : Byte) : (s.setV r b).stk = s.stk := rfl
@[simp] theorem State.setV_sp (s : State) (r : Reg) (b : Byte) : (s.setV r b).sp = s.sp := rfl
@[simp] theorem State.setV_mem (s : State) (r : Reg) (b : Byte) : (s.setV r b).mem = s.mem := rfl
@[simp] theorem State.setV_fb (s : State) (r : Reg) (b : Byte) : (s.setV r b).fb = s.fb := rfl
@[simp] theorem State.setV_rs (s : State) (r : Reg) (b : Byte) : (s.setV r b).rs = s.rs := rfl
@[simp] theorem State.setV_fault (s : State) (r : Reg) (b : Byte) : (s.setV r b).fault = s.fault := rfl
@[simp] theorem State.setV_key (s : State) (r : Reg) (b : Byte) : (s.setV r b).key = s.key := rfl
@[simp] theorem State.setV_policy (s : State) (r : Reg) (b : Byte) : (s.setV r b).policy = s.policy := rfl
@[simp] theorem State.setV_glyphRom (s : State) (r : Reg) (b : Byte) : (s.setV r b).glyphRom = s.glyphRom := rfl
@[simp] theorem State.setV_draws (s : State) (r : Reg) (b : Byte) : (s.setV r b).draws = s.draws := rfl
@[simp] theorem State.setV_schedule (s : State) (r : Reg) (b : Byte) : (s.setV r b).schedule = s.schedule := rfl
@[simp] theorem State.setV_reports (s : State) (r : Reg) (b : Byte) : (s.setV r b).reports = s.reports := rfl

/-! ## setWithFlag -/

@[simp] theorem State.setWithFlag_i (s : State) (x : Reg) (result flag : Byte) : (s.setWithFlag x result flag).i = s.i := rfl
@[simp] theorem State.setWithFlag_pc (s : State) (x : Reg) (result flag : Byte) : (s.setWithFlag x result flag).pc = s.pc := rfl
@[simp] theorem State.setWithFlag_dt (s : State) (x : Reg) (result flag : Byte) : (s.setWithFlag x result flag).dt = s.dt := rfl
@[simp] theorem State.setWithFlag_st (s : State) (x : Reg) (result flag : Byte) : (s.setWithFlag x result flag).st = s.st := rfl
@[simp] theorem State.setWithFlag_stk (s : State) (x : Reg) (result flag : Byte) : (s.setWithFlag x result flag).stk = s.stk := rfl
@[simp] theorem State.setWithFlag_sp (s : State) (x : Reg) (result flag : Byte) : (s.setWithFlag x result flag).sp = s.sp := rfl
@[simp] theorem State.setWithFlag_mem (s : State) (x : Reg) (result flag : Byte) : (s.setWithFlag x result flag).mem = s.mem := rfl
@[simp] theorem State.setWithFlag_fb (s : State) (x : Reg) (result flag : Byte) : (s.setWithFlag x result flag).fb = s.fb := rfl
@[simp] theorem State.setWithFlag_rs (s : State) (x : Reg) (result flag : Byte) : (s.setWithFlag x result flag).rs = s.rs := rfl
@[simp] theorem State.setWithFlag_fault (s : State) (x : Reg) (result flag : Byte) : (s.setWithFlag x result flag).fault = s.fault := rfl
@[simp] theorem State.setWithFlag_key (s : State) (x : Reg) (result flag : Byte) : (s.setWithFlag x result flag).key = s.key := rfl
@[simp] theorem State.setWithFlag_policy (s : State) (x : Reg) (result flag : Byte) : (s.setWithFlag x result flag).policy = s.policy := rfl
@[simp] theorem State.setWithFlag_glyphRom (s : State) (x : Reg) (result flag : Byte) : (s.setWithFlag x result flag).glyphRom = s.glyphRom := rfl
@[simp] theorem State.setWithFlag_draws (s : State) (x : Reg) (result flag : Byte) : (s.setWithFlag x result flag).draws = s.draws := rfl
@[simp] theorem State.setWithFlag_schedule (s : State) (x : Reg) (result flag : Byte) : (s.setWithFlag x result flag).schedule = s.schedule := rfl
@[simp] theorem State.setWithFlag_reports (s : State) (x : Reg) (result flag : Byte) : (s.setWithFlag x result flag).reports = s.reports := rfl

/-! ## memWrite -/

@[simp] theorem State.memWrite_v (s : State) (addr : Nat) (b : Byte) : (s.memWrite addr b).v = s.v := rfl
@[simp] theorem State.memWrite_i (s : State) (addr : Nat) (b : Byte) : (s.memWrite addr b).i = s.i := rfl
@[simp] theorem State.memWrite_pc (s : State) (addr : Nat) (b : Byte) : (s.memWrite addr b).pc = s.pc := rfl
@[simp] theorem State.memWrite_dt (s : State) (addr : Nat) (b : Byte) : (s.memWrite addr b).dt = s.dt := rfl
@[simp] theorem State.memWrite_st (s : State) (addr : Nat) (b : Byte) : (s.memWrite addr b).st = s.st := rfl
@[simp] theorem State.memWrite_stk (s : State) (addr : Nat) (b : Byte) : (s.memWrite addr b).stk = s.stk := rfl
@[simp] theorem State.memWrite_sp (s : State) (addr : Nat) (b : Byte) : (s.memWrite addr b).sp = s.sp := rfl
@[simp] theorem State.memWrite_fb (s : State) (addr : Nat) (b : Byte) : (s.memWrite addr b).fb = s.fb := rfl
@[simp] theorem State.memWrite_rs (s : State) (addr : Nat) (b : Byte) : (s.memWrite addr b).rs = s.rs := rfl
@[simp] theorem State.memWrite_fault (s : State) (addr : Nat) (b : Byte) : (s.memWrite addr b).fault = s.fault := rfl
@[simp] theorem State.memWrite_key (s : State) (addr : Nat) (b : Byte) : (s.memWrite addr b).key = s.key := rfl
@[simp] theorem State.memWrite_policy (s : State) (addr : Nat) (b : Byte) : (s.memWrite addr b).policy = s.policy := rfl
@[simp] theorem State.memWrite_glyphRom (s : State) (addr : Nat) (b : Byte) : (s.memWrite addr b).glyphRom = s.glyphRom := rfl
@[simp] theorem State.memWrite_draws (s : State) (addr : Nat) (b : Byte) : (s.memWrite addr b).draws = s.draws := rfl
@[simp] theorem State.memWrite_schedule (s : State) (addr : Nat) (b : Byte) : (s.memWrite addr b).schedule = s.schedule := rfl
@[simp] theorem State.memWrite_reports (s : State) (addr : Nat) (b : Byte) : (s.memWrite addr b).reports = s.reports := rfl

/-! ## goto -/

@[simp] theorem State.goto_v (s : State) (target : Word) : (s.goto target).v = s.v := rfl
@[simp] theorem State.goto_i (s : State) (target : Word) : (s.goto target).i = s.i := rfl
@[simp] theorem State.goto_dt (s : State) (target : Word) : (s.goto target).dt = s.dt := rfl
@[simp] theorem State.goto_st (s : State) (target : Word) : (s.goto target).st = s.st := rfl
@[simp] theorem State.goto_stk (s : State) (target : Word) : (s.goto target).stk = s.stk := rfl
@[simp] theorem State.goto_sp (s : State) (target : Word) : (s.goto target).sp = s.sp := rfl
@[simp] theorem State.goto_mem (s : State) (target : Word) : (s.goto target).mem = s.mem := rfl
@[simp] theorem State.goto_fb (s : State) (target : Word) : (s.goto target).fb = s.fb := rfl
@[simp] theorem State.goto_rs (s : State) (target : Word) : (s.goto target).rs = s.rs := rfl
@[simp] theorem State.goto_fault (s : State) (target : Word) : (s.goto target).fault = s.fault := rfl
@[simp] theorem State.goto_key (s : State) (target : Word) : (s.goto target).key = s.key := rfl
@[simp] theorem State.goto_policy (s : State) (target : Word) : (s.goto target).policy = s.policy := rfl
@[simp] theorem State.goto_glyphRom (s : State) (target : Word) : (s.goto target).glyphRom = s.glyphRom := rfl
@[simp] theorem State.goto_draws (s : State) (target : Word) : (s.goto target).draws = s.draws := rfl
@[simp] theorem State.goto_schedule (s : State) (target : Word) : (s.goto target).schedule = s.schedule := rfl
@[simp] theorem State.goto_reports (s : State) (target : Word) : (s.goto target).reports = s.reports := rfl

/-! ## advance -/

@[simp] theorem State.advance_v (s : State) : (s.advance).v = s.v := rfl
@[simp] theorem State.advance_i (s : State) : (s.advance).i = s.i := rfl
@[simp] theorem State.advance_dt (s : State) : (s.advance).dt = s.dt := rfl
@[simp] theorem State.advance_st (s : State) : (s.advance).st = s.st := rfl
@[simp] theorem State.advance_stk (s : State) : (s.advance).stk = s.stk := rfl
@[simp] theorem State.advance_sp (s : State) : (s.advance).sp = s.sp := rfl
@[simp] theorem State.advance_mem (s : State) : (s.advance).mem = s.mem := rfl
@[simp] theorem State.advance_fb (s : State) : (s.advance).fb = s.fb := rfl
@[simp] theorem State.advance_rs (s : State) : (s.advance).rs = s.rs := rfl
@[simp] theorem State.advance_fault (s : State) : (s.advance).fault = s.fault := rfl
@[simp] theorem State.advance_key (s : State) : (s.advance).key = s.key := rfl
@[simp] theorem State.advance_policy (s : State) : (s.advance).policy = s.policy := rfl
@[simp] theorem State.advance_glyphRom (s : State) : (s.advance).glyphRom = s.glyphRom := rfl
@[simp] theorem State.advance_draws (s : State) : (s.advance).draws = s.draws := rfl
@[simp] theorem State.advance_schedule (s : State) : (s.advance).schedule = s.schedule := rfl
@[simp] theorem State.advance_reports (s : State) : (s.advance).reports = s.reports := rfl

/-! ## skipIf -/

@[simp] theorem State.skipIf_v (s : State) (c : Bool) : (s.skipIf c).v = s.v := rfl
@[simp] theorem State.skipIf_i (s : State) (c : Bool) : (s.skipIf c).i = s.i := rfl
@[simp] theorem State.skipIf_dt (s : State) (c : Bool) : (s.skipIf c).dt = s.dt := rfl
@[simp] theorem State.skipIf_st (s : State) (c : Bool) : (s.skipIf c).st = s.st := rfl
@[simp] theorem State.skipIf_stk (s : State) (c : Bool) : (s.skipIf c).stk = s.stk := rfl
@[simp] theorem State.skipIf_sp (s : State) (c : Bool) : (s.skipIf c).sp = s.sp := rfl
@[simp] theorem State.skipIf_mem (s : State) (c : Bool) : (s.skipIf c).mem = s.mem := rfl
@[simp] theorem State.skipIf_fb (s : State) (c : Bool) : (s.skipIf c).fb = s.fb := rfl
@[simp] theorem State.skipIf_rs (s : State) (c : Bool) : (s.skipIf c).rs = s.rs := rfl
@[simp] theorem State.skipIf_fault (s : State) (c : Bool) : (s.skipIf c).fault = s.fault := rfl
@[simp] theorem State.skipIf_key (s : State) (c : Bool) : (s.skipIf c).key = s.key := rfl
@[simp] theorem State.skipIf_policy (s : State) (c : Bool) : (s.skipIf c).policy = s.policy := rfl
@[simp] theorem State.skipIf_glyphRom (s : State) (c : Bool) : (s.skipIf c).glyphRom = s.glyphRom := rfl
@[simp] theorem State.skipIf_draws (s : State) (c : Bool) : (s.skipIf c).draws = s.draws := rfl
@[simp] theorem State.skipIf_schedule (s : State) (c : Bool) : (s.skipIf c).schedule = s.schedule := rfl
@[simp] theorem State.skipIf_reports (s : State) (c : Bool) : (s.skipIf c).reports = s.reports := rfl

/-! ## raiseFault -/

@[simp] theorem State.raiseFault_v (s : State) (kind : FaultKind) (w : Word) : (s.raiseFault kind w).v = s.v := rfl
@[simp] theorem State.raiseFault_i (s : State) (kind : FaultKind) (w : Word) : (s.raiseFault kind w).i = s.i := rfl
@[simp] theorem State.raiseFault_pc (s : State) (kind : FaultKind) (w : Word) : (s.raiseFault kind w).pc = s.pc := rfl
@[simp] theorem State.raiseFault_dt (s : State) (kind : FaultKind) (w : Word) : (s.raiseFault kind w).dt = s.dt := rfl
@[simp] theorem State.raiseFault_st (s : State) (kind : FaultKind) (w : Word) : (s.raiseFault kind w).st = s.st := rfl
@[simp] theorem State.raiseFault_stk (s : State) (kind : FaultKind) (w : Word) : (s.raiseFault kind w).stk = s.stk := rfl
@[simp] theorem State.raiseFault_sp (s : State) (kind : FaultKind) (w : Word) : (s.raiseFault kind w).sp = s.sp := rfl
@[simp] theorem State.raiseFault_mem (s : State) (kind : FaultKind) (w : Word) : (s.raiseFault kind w).mem = s.mem := rfl
@[simp] theorem State.raiseFault_fb (s : State) (kind : FaultKind) (w : Word) : (s.raiseFault kind w).fb = s.fb := rfl
@[simp] theorem State.raiseFault_key (s : State) (kind : FaultKind) (w : Word) : (s.raiseFault kind w).key = s.key := rfl
@[simp] theorem State.raiseFault_policy (s : State) (kind : FaultKind) (w : Word) : (s.raiseFault kind w).policy = s.policy := rfl
@[simp] theorem State.raiseFault_glyphRom (s : State) (kind : FaultKind) (w : Word) : (s.raiseFault kind w).glyphRom = s.glyphRom := rfl
@[simp] theorem State.raiseFault_draws (s : State) (kind : FaultKind) (w : Word) : (s.raiseFault kind w).draws = s.draws := rfl
@[simp] theorem State.raiseFault_schedule (s : State) (kind : FaultKind) (w : Word) : (s.raiseFault kind w).schedule = s.schedule := rfl
@[simp] theorem State.raiseFault_reports (s : State) (kind : FaultKind) (w : Word) : (s.raiseFault kind w).reports = s.reports := rfl

/-! ## afterDue -/

@[simp] theorem State.afterDue_v (s : State) : (s.afterDue).v = s.v := rfl
@[simp] theorem State.afterDue_i (s : State) : (s.afterDue).i = s.i := rfl
@[simp] theorem State.afterDue_pc (s : State) : (s.afterDue).pc = s.pc := rfl
@[simp] theorem State.afterDue_dt (s : State) : (s.afterDue).dt = s.dt := rfl
@[simp] theorem State.afterDue_st (s : State) : (s.afterDue).st = s.st := rfl
@[simp] theorem State.afterDue_stk (s : State) : (s.afterDue).stk = s.stk := rfl
@[simp] theorem State.afterDue_sp (s : State) : (s.afterDue).sp = s.sp := rfl
@[simp] theorem State.afterDue_mem (s : State) : (s.afterDue).mem = s.mem := rfl
@[simp] theorem State.afterDue_fb (s : State) : (s.afterDue).fb = s.fb := rfl
@[simp] theorem State.afterDue_rs (s : State) : (s.afterDue).rs = s.rs := rfl
@[simp] theorem State.afterDue_fault (s : State) : (s.afterDue).fault = s.fault := rfl
@[simp] theorem State.afterDue_key (s : State) : (s.afterDue).key = s.key := rfl
@[simp] theorem State.afterDue_policy (s : State) : (s.afterDue).policy = s.policy := rfl
@[simp] theorem State.afterDue_glyphRom (s : State) : (s.afterDue).glyphRom = s.glyphRom := rfl
@[simp] theorem State.afterDue_draws (s : State) : (s.afterDue).draws = s.draws := rfl
@[simp] theorem State.afterDue_reports (s : State) : (s.afterDue).reports = s.reports := rfl

/-! ## What the updates write -/

@[simp] theorem State.goto_pc (s : State) (target : Word) : (s.goto target).pc = mask12 target := rfl
@[simp] theorem State.advance_pc (s : State) : s.advance.pc = s.nextPc := rfl
theorem State.skipIf_pc (s : State) (c : Bool) :
    (s.skipIf c).pc = if c then s.skipPc else s.nextPc := rfl
@[simp] theorem State.raiseFault_rs (s : State) (kind : FaultKind) (w : Word) : (s.raiseFault kind w).rs = .faulted := rfl
@[simp] theorem State.raiseFault_fault (s : State) (kind : FaultKind) (w : Word) :
    (s.raiseFault kind w).fault = some ⟨kind, w, s.pc⟩ := rfl
@[simp] theorem State.afterDue_schedule (s : State) : s.afterDue.schedule = s.schedule.tail := rfl

/-! ## Reads of memory and registers depend on their own fields only -/

theorem State.memRead_congr {s t : State} (hr : t.glyphRom = s.glyphRom) (hm : t.mem = s.mem) (a : Nat) :
    t.memRead a = s.memRead a := by simp [State.memRead, hr, hm]

theorem State.getV_congr {s t : State} (hv : t.v = s.v) (r : Reg) : t.getV r = s.getV r := by
  simp [State.getV, hv]

@[simp] theorem State.setV_memRead (s : State) (r : Reg) (b : Byte) (a : Nat) : (s.setV r b).memRead a = s.memRead a := rfl
@[simp] theorem State.setWithFlag_memRead (s : State) (x : Reg) (result flag : Byte) (a : Nat) : (s.setWithFlag x result flag).memRead a = s.memRead a := rfl
@[simp] theorem State.memWrite_getV (s : State) (addr : Nat) (b : Byte) (q : Reg) : (s.memWrite addr b).getV q = s.getV q := rfl
@[simp] theorem State.goto_memRead (s : State) (target : Word) (a : Nat) : (s.goto target).memRead a = s.memRead a := rfl
@[simp] theorem State.goto_getV (s : State) (target : Word) (q : Reg) : (s.goto target).getV q = s.getV q := rfl
@[simp] theorem State.advance_memRead (s : State) (a : Nat) : (s.advance).memRead a = s.memRead a := rfl
@[simp] theorem State.advance_getV (s : State) (q : Reg) : (s.advance).getV q = s.getV q := rfl
@[simp] theorem State.skipIf_memRead (s : State) (c : Bool) (a : Nat) : (s.skipIf c).memRead a = s.memRead a := rfl
@[simp] theorem State.skipIf_getV (s : State) (c : Bool) (q : Reg) : (s.skipIf c).getV q = s.getV q := rfl
@[simp] theorem State.raiseFault_memRead (s : State) (kind : FaultKind) (w : Word) (a : Nat) : (s.raiseFault kind w).memRead a = s.memRead a := rfl
@[simp] theorem State.raiseFault_getV (s : State) (kind : FaultKind) (w : Word) (q : Reg) : (s.raiseFault kind w).getV q = s.getV q := rfl
@[simp] theorem State.afterDue_memRead (s : State) (a : Nat) : (s.afterDue).memRead a = s.memRead a := rfl
@[simp] theorem State.afterDue_getV (s : State) (q : Reg) : (s.afterDue).getV q = s.getV q := rfl

theorem State.sameMemory_of_fields {s t : State} (hr : t.glyphRom = s.glyphRom) (hm : t.mem = s.mem) : SameMemory s t :=
  fun a => State.memRead_congr hr hm a

end Sys2Proof.Machine
end

