-- ==== Sys2Proof/Laws/Memory.lean ====
section
/-! SUPPORT. Memory: read after write, one byte changes, and every operation keeps the canonical form. -/

namespace Sys2Proof.Machine

/-! ## The list of cells -/

@[simp] theorem Memory.lookup_nil (a : Nat) : Memory.lookup a [] = none := rfl

theorem Memory.lookup_cons (a : Nat) (c : Host.Cell) (m : List Host.Cell) :
    Memory.lookup a (c :: m) = if a = c.1 then some c.2 else Memory.lookup a m := rfl

theorem Memory.lookup_filter (p : Nat → Bool) (a : Nat) (m : List Host.Cell) :
    Memory.lookup a (m.filter (fun c => p c.1)) = if p a then Memory.lookup a m else none := by
  induction m with
  | nil => simp
  | cons c m ih =>
    by_cases hc : p c.1 = true
    · rw [List.filter_cons_of_pos (by simpa using hc), Memory.lookup_cons, Memory.lookup_cons, ih]
      by_cases h : a = c.1
      · subst h; simp [hc]
      · simp [h]
    · rw [List.filter_cons_of_neg (by simpa using hc), ih, Memory.lookup_cons]
      by_cases h : a = c.1
      · subst h; simp [hc]
      · simp [h]

theorem Memory.lookup_erase (a b : Nat) (m : List Host.Cell) :
    Memory.lookup b (Memory.erase a m) = if b = a then none else Memory.lookup b m := by
  have h := Memory.lookup_filter (fun k => decide (k ≠ a)) b m
  unfold Memory.erase
  rw [h]
  by_cases hb : b = a <;> simp [hb]

theorem Memory.lookup_insert (a b : Nat) (v : Byte) (m : List Host.Cell) (ha : Memory.lookup a m = none) :
    Memory.lookup b (Memory.insert a v m) = if b = a then some v else Memory.lookup b m := by
  induction m with
  | nil => simp [Memory.insert, Memory.lookup_cons]
  | cons c m ih =>
    have hca : a ≠ c.1 := by
      intro h; simp [Memory.lookup_cons, h] at ha
    have ha' : Memory.lookup a m = none := by simpa [Memory.lookup_cons, hca] using ha
    simp only [Memory.insert]
    split
    · simp [Memory.lookup_cons]
    · rw [Memory.lookup_cons, ih ha', Memory.lookup_cons]
      by_cases hb : b = c.1
      · subst hb; simp [Ne.symm hca]
      · simp [hb]

/-- A write gives its byte at its address and leaves every other address alone, whatever the list was. -/
theorem Memory.read_write (rom : Config.GlyphRom) (m : List Host.Cell) (a b : Nat) (v : Byte) :
    Memory.read rom (Memory.write rom m a v) b = if b = a then v else Memory.read rom m b := by
  unfold Memory.read Memory.write
  split
  · rename_i hv
    rw [Memory.lookup_erase]
    by_cases hb : b = a
    · subst hb; simp [hv]
    · simp [hb]
  · rw [Memory.lookup_insert _ _ _ _ (by simp [Memory.lookup_erase]), Memory.lookup_erase]
    by_cases hb : b = a <;> simp [hb]

/-! ## The canonical form -/

theorem Memory.wf_filter {rom : Config.GlyphRom} {m : List Host.Cell} (h : Memory.wf rom m) (p : Host.Cell → Bool) :
    Memory.wf rom (m.filter p) :=
  ⟨h.1.filter _, fun c hc => h.2 c (List.mem_of_mem_filter hc)⟩

theorem Memory.mem_insert {a : Nat} {v : Byte} {m : List Host.Cell} {c : Host.Cell} (h : c ∈ Memory.insert a v m) :
    c = (a, v) ∨ c ∈ m := by
  induction m with
  | nil => simpa [Memory.insert] using h
  | cons d m ih =>
    simp only [Memory.insert] at h
    split at h
    · simpa using h
    · rcases List.mem_cons.mp h with rfl | h
      · simp
      · rcases ih h with rfl | h <;> simp_all

theorem Memory.pairwise_insert {a : Nat} {v : Byte} {m : List Host.Cell} (hs : m.Pairwise (fun c d => c.1 < d.1))
    (ha : ∀ c ∈ m, c.1 ≠ a) : (Memory.insert a v m).Pairwise (fun c d => c.1 < d.1) := by
  induction m with
  | nil => simp [Memory.insert]
  | cons d m ih =>
    have hs' := List.pairwise_cons.mp hs
    simp only [Memory.insert]
    split
    · rename_i had
      refine List.pairwise_cons.mpr ⟨fun c hc => ?_, hs⟩
      rcases List.mem_cons.mp hc with rfl | hc
      · exact had
      · exact Nat.lt_trans had (hs'.1 c hc)
    · rename_i had
      have hda : d.1 ≠ a := ha d (by simp)
      refine List.pairwise_cons.mpr ⟨fun c hc => ?_, ih hs'.2 (fun c hc => ha c (by simp [hc]))⟩
      rcases Memory.mem_insert hc with rfl | hc
      · simp only; omega
      · exact hs'.1 c hc

theorem Memory.wf_write {rom : Config.GlyphRom} {m : List Host.Cell} (h : Memory.wf rom m) {a : Nat}
    (ha : a < Config.memSize) (v : Byte) : Memory.wf rom (Memory.write rom m a v) := by
  have he : Memory.wf rom (Memory.erase a m) := Memory.wf_filter h _
  unfold Memory.write
  split
  · exact he
  · rename_i hv
    refine ⟨Memory.pairwise_insert he.1 ?_, fun c hc => ?_⟩
    · intro c hc
      simpa using (List.mem_filter.mp hc).2
    · rcases Memory.mem_insert hc with rfl | hc
      · exact ⟨ha, hv⟩
      · exact he.2 c hc

/-! ## The machine's accesses -/

/-- Every address is masked at the access. -/
theorem State.memRead_mod (s : State) (a : Nat) : s.memRead (a % Config.memSize) = s.memRead a := by
  simp [State.memRead]

theorem State.memRead_memWrite (s : State) (a b : Nat) (v : Byte) :
    (s.memWrite a v).memRead b = if b % Config.memSize = a % Config.memSize then v else s.memRead b := by
  simp only [State.memRead, State.memWrite, Memory.read_write]

theorem State.memCanonical_memWrite {s : State} (h : s.memCanonical) (a : Nat) (v : Byte) :
    (s.memWrite a v).memCanonical :=
  Memory.wf_write h (Nat.mod_lt _ (by decide)) v

/-! ## Bytes written at rising addresses -/

theorem State.writeBytes_cons (s : State) (a : Nat) (b : Byte) (bs : List Byte) :
    s.writeBytes a (b :: bs) = (s.memWrite a b).writeBytes (a + 1) bs := rfl

/-- `writeBytes` writes memory and nothing else. -/
theorem State.writeBytes_eq (s : State) (a : Nat) (bs : List Byte) :
    s.writeBytes a bs = { s with mem := (s.writeBytes a bs).mem } := by
  induction bs generalizing s a with
  | nil => rfl
  | cons b bs ih => rw [State.writeBytes_cons, ih]; rfl

theorem State.writeBytes_memCanonical {s : State} (h : s.memCanonical) (a : Nat) (bs : List Byte) :
    (s.writeBytes a bs).memCanonical := by
  induction bs generalizing s a with
  | nil => exact h
  | cons b bs ih => exact ih (State.memCanonical_memWrite h a b) (a + 1)

/-- An address that no written byte reaches reads as before. -/
theorem State.writeBytes_memRead_other (s : State) (a b : Nat) (bs : List Byte)
    (h : ∀ k, k < bs.length → b % Config.memSize ≠ (a + k) % Config.memSize) :
    (s.writeBytes a bs).memRead b = s.memRead b := by
  induction bs generalizing s a with
  | nil => rfl
  | cons v bs ih =>
    rw [State.writeBytes_cons, ih, State.memRead_memWrite, if_neg]
    · simpa using h 0 (by simp)
    · intro k hk
      have := h (k + 1) (by simpa using hk)
      rwa [Nat.add_assoc, Nat.add_comm 1 k]

/-- Each written byte is read back, when no more bytes are written than memory has. -/
theorem State.writeBytes_memRead_written (s : State) (a : Nat) (bs : List Byte) (hlen : bs.length ≤ Config.memSize)
    (k : Nat) (hk : k < bs.length) : (s.writeBytes a bs).memRead (a + k) = bs[k] := by
  induction bs generalizing s a k with
  | nil => simp at hk
  | cons v bs ih =>
    rw [State.writeBytes_cons]
    cases k with
    | zero =>
      rw [State.writeBytes_memRead_other]
      · simp [State.memRead_memWrite]
      · intro j hj
        simp only [List.length_cons, Config.memSize] at hlen ⊢
        omega
    | succ k =>
      have := ih (s.memWrite a v) (a + 1) (by simp at hlen; omega) k (by simpa using hk)
      rw [show a + (k + 1) = a + 1 + k by omega, this]
      rfl

@[simp] theorem State.memRead_writeBytes_nil (s : State) (a b : Nat) : (s.writeBytes a []).memRead b = s.memRead b := rfl

/-- Unload's clear: every address from 0x050 up reads 0, every lower one as before (spec 70_reset_and_hazards.md R237). -/
theorem State.unload_memRead (s : State) (a : Nat) :
    s.unload.memRead a = if a % Config.memSize < Config.glyphBytes then s.memRead a else 0 := by
  have h := Memory.lookup_filter (fun k => decide (k < Config.glyphBytes)) (a % Config.memSize) s.mem
  simp only [State.memRead, State.unload, Memory.read, h]
  by_cases ha : a % Config.memSize < Config.glyphBytes
  · simp [ha]
  · simp [ha, Memory.unlisted]

end Sys2Proof.Machine
end

