-- ==== Sys2Proof/Laws/Ops.lean ====
section
/-! SUPPORT. What each named operation over registers, the pc, the stack, the keys and register ranges can do. -/

namespace Sys2Proof.Machine

/-! ## Registers -/

theorem State.getV_setV (s : State) (r q : Reg) (b : Byte) :
    (s.setV r b).getV q = if q = r then b else s.getV q := by
  simp only [State.getV, State.setV, Vector.getElem_set, Fin.val_inj, eq_comm]

/-- The flag is written last. -/
theorem State.getV_setWithFlag (s : State) (x q : Reg) (result flag : Byte) :
    (s.setWithFlag x result flag).getV q =
      if q = Reg.flag then flag else if q = x then result else s.getV q := by
  simp only [State.setWithFlag, State.getV_setV]

/-! ## Masked words and the pc -/

theorem mask12_toNat (a : Word) : (mask12 a).toNat = a.toNat % 4096 := by
  have : (4095 : Nat) = 2 ^ 12 - 1 := by decide
  simp only [mask12, BitVec.toNat_and, BitVec.toNat_ofNat, Nat.reducePow, Nat.reduceMod]
  rw [this, Nat.and_two_pow_sub_one_eq_mod]

theorem mask12_lt (a : Word) : (mask12 a).toNat < 4096 := by
  rw [mask12_toNat]; exact Nat.mod_lt _ (by decide)

theorem State.nextPc_toNat (s : State) : s.nextPc.toNat = (s.pc.toNat + 2) % 4096 := by
  have h : (2 : Word).toNat = 2 := rfl
  rw [State.nextPc, mask12_toNat, BitVec.toNat_add, h]
  omega

theorem State.skipPc_toNat (s : State) : s.skipPc.toNat = (s.pc.toNat + 4) % 4096 := by
  have h : (4 : Word).toNat = 4 := rfl
  rw [State.skipPc, mask12_toNat, BitVec.toNat_add, h]
  omega

theorem State.advance_advances {s t : State} (h : t.pc = s.pc) : Advances s t.advance := by
  rw [Advances, State.advance_pc, State.nextPc_toNat, h]

theorem State.skipIf_skips (s : State) {c : Bool} {p : Prop} (h : c = true ↔ p) : SkipsWhen p s (s.skipIf c) := by
  constructor
  · intro hp
    rw [State.skipIf_pc, if_pos (h.mpr hp), State.skipPc_toNat]
  · intro hp
    rw [State.skipIf_pc, if_neg (fun hc => hp (h.mp hc)), State.nextPc_toNat]

/-! ## The stack: each primitive has two outcomes -/

theorem State.push_cases (s : State) (a : Word) :
    (s.sp.val = 16 ∧ s.push a = none) ∨
    ∃ h : s.sp.val < 16, s.push a =
      some { s with stk := s.stk.set s.sp.val a, sp := ⟨s.sp.val + 1, by omega⟩ } := by
  by_cases h : s.sp.val < 16
  · exact .inr ⟨h, by simp [State.push, h]⟩
  · exact .inl ⟨by have := s.sp.isLt; omega, by simp [State.push, h]⟩

theorem State.pop_cases (s : State) :
    (s.sp.val = 0 ∧ s.pop = none) ∨
    ∃ h : 0 < s.sp.val, s.pop =
      some (s.stk[s.sp.val - 1], { s with sp := ⟨s.sp.val - 1, by omega⟩ }) := by
  by_cases h : 0 < s.sp.val
  · exact .inr ⟨h, by simp [State.pop, h]⟩
  · exact .inl ⟨by omega, by simp [State.pop, h]⟩

/-! ## Operand forms -/

theorem lowNibble_val (b : Byte) : (lowNibble b).val = b.toNat % 16 := by
  simp [lowNibble, BitVec.extractLsb'_toNat]

theorem byteOf_toNat {n : Nat} (h : n < 256) : (byteOf n).toNat = n := by
  simp [byteOf, BitVec.toNat_ofNat, Nat.mod_eq_of_lt h]

theorem glyphAddr_toNat (d : Fin 16) : (glyphAddr d).toNat = 5 * d.val := by
  have := d.isLt
  simp only [glyphAddr, BitVec.toNat_ofNat]
  omega

theorem mem_allRegs (k : Reg) : k ∈ allRegs := by revert k; decide

theorem regsThrough_length (x : Reg) : (regsThrough x).length = x.val + 1 := by revert x; decide

theorem regsThrough_getElem (x : Reg) (k : Nat) (h : k < (regsThrough x).length) :
    (regsThrough x)[k].val = k := by
  revert k; revert x; decide

theorem mem_regsThrough (x k : Reg) : k ∈ regsThrough x ↔ k ≤ x := by
  revert x k; decide

/-! ## Keys -/

theorem State.lowestKey_none (s : State) : s.lowestKey = none ↔ ∀ k : Fin 16, s.key[k.val] = false := by
  simp [State.lowestKey, State.keyDown, List.find?_eq_none, mem_allRegs]

theorem find_least (p : Reg → Bool) (k : Reg) (hk : p k = true) (hl : ∀ j : Reg, j < k → p j = false) :
    allRegs.find? p = some k := by
  have hs : allRegs = (List.finRange 16) := by decide
  rw [hs, List.find?_eq_some_iff_getElem]
  refine ⟨hk, k.val, by simp, by simp, ?_⟩
  intro j hj
  have hj' : j < 16 := Nat.lt_trans hj k.isLt
  have := hl ⟨j, hj'⟩ (by simpa [Fin.lt_def] using hj)
  simpa using this

theorem State.lowestKey_some (s : State) (k : Fin 16) (hk : s.key[k.val] = true)
    (hl : ∀ j : Fin 16, j < k → s.key[j.val] = false) : s.lowestKey = some k :=
  find_least s.keyDown k hk hl

/-! ## Register ranges -/

/-- Loading a list of registers writes those and no other field. -/
theorem State.foldl_setV (f : Reg → Byte) (l : List Reg) (s : State) :
    ∃ v, l.foldl (fun t k => t.setV k (f k)) s = { s with v := v } ∧
      ∀ q : Reg, ({ s with v := v } : State).getV q = if q ∈ l then f q else s.getV q := by
  induction l generalizing s with
  | nil => exact ⟨s.v, rfl, fun q => by simp⟩
  | cons k l ih =>
    obtain ⟨v, hv, hq⟩ := ih (s.setV k (f k))
    refine ⟨v, by rw [List.foldl_cons, hv]; rfl, fun q => ?_⟩
    have h1 : ({ s with v := v } : State).getV q = ({ s.setV k (f k) with v := v } : State).getV q := rfl
    rw [h1, hq q, State.getV_setV]
    by_cases hl : q ∈ l
    · simp [hl]
    · by_cases hk : q = k <;> simp [hl, hk]

/-- Fx65's transfer: V0 .. Vx from memory, no other register, no other field. -/
theorem State.loadRegs_spec (s : State) (x : Reg) :
    s.loadRegs x = { s with v := (s.loadRegs x).v } ∧
      ∀ q : Reg, (s.loadRegs x).getV q = if q ≤ x then s.memRead (s.dataAddr q.val) else s.getV q := by
  obtain ⟨v, hv, hq⟩ := State.foldl_setV (fun k => s.memRead (s.dataAddr k.val)) (regsThrough x) s
  have hl : s.loadRegs x = { s with v := v } := hv
  refine ⟨by rw [hl], fun q => ?_⟩
  rw [hl, hq q]
  simp only [mem_regsThrough]

/-- Fx55's transfer writes memory and nothing else. -/
theorem State.storeRegs_eq (s : State) (x : Reg) : s.storeRegs x = { s with mem := (s.storeRegs x).mem } :=
  State.writeBytes_eq _ _ _

/-- Fx55's transfer: V0 .. Vx at I .. I + x. -/
theorem State.storeRegs_memRead (s : State) (x k : Reg) (hk : k ≤ x) :
    (s.storeRegs x).memRead (s.dataAddr k.val) = s.getV k := by
  have hk' : k.val < ((regsThrough x).map s.getV).length := by
    rw [List.length_map, regsThrough_length]; exact Nat.lt_succ_of_le hk
  have h := State.writeBytes_memRead_written s (s.dataAddr 0) ((regsThrough x).map s.getV)
    (by rw [List.length_map, regsThrough_length]; have := x.isLt; simp only [Config.memSize]; omega) k.val hk'
  have hi : (regsThrough x)[k.val]'(by simpa using hk') = k := Fin.ext (regsThrough_getElem x k.val _)
  simpa [State.storeRegs, State.dataAddr, hi] using h

/-- Fx55's transfer leaves every other byte alone. -/
theorem State.storeRegs_memRead_other (s : State) (x : Reg) (a : Nat)
    (h : ∀ k : Reg, k ≤ x → a % 4096 ≠ s.dataAddr k.val % 4096) : (s.storeRegs x).memRead a = s.memRead a := by
  refine State.writeBytes_memRead_other s _ _ _ (fun k hk => ?_)
  rw [List.length_map, regsThrough_length] at hk
  have hx := x.isLt
  have hk16 : k < 16 := by omega
  simpa [State.dataAddr, Config.memSize] using h ⟨k, hk16⟩ (by simp only [Fin.le_def]; omega)

end Sys2Proof.Machine
end

