-- ==== Sys2Proof/Laws/Display.lean ====
section
/-! SUPPORT. The frame buffer: one pixel changes under xorPixel, and what a drawn sprite does to every pixel and to the
collision flag (spec 43_display.md R172, R173). -/

namespace Sys2Proof.Machine

theorem FrameBuffer.get_xorPixel (fb : FrameBuffer) (px qx : Fin 64) (py qy : Fin 32) (bit : Bool) :
    (fb.xorPixel px py bit).get qx qy =
      if qx = px ∧ qy = py then (fb.get px py ^^ bit) else fb.get qx qy := by
  unfold FrameBuffer.xorPixel FrameBuffer.get
  simp only [Vector.getElem_set]
  by_cases hy : py.val = qy.val
  · have hy' : qy = py := Fin.ext hy.symm
    subst hy'
    by_cases hx : px.val = qx.val
    · have hx' : qx = px := Fin.ext hx.symm
      subst hx'; simp
    · have : ¬ qx = px := fun h => hx (by rw [h])
      simp [hx, this]
  · have : ¬ qy = py := fun h => hy (by rw [h])
    simp [hy, this]

/-- Two frame buffers with the same pixels are equal. -/
theorem FrameBuffer.ext_get {fb gb : FrameBuffer} (h : ∀ px py, fb.get px py = gb.get px py) : fb = gb := by
  apply Vector.ext
  intro j hj
  apply Vector.ext
  intro k hk
  exact h ⟨k, hk⟩ ⟨j, hj⟩

theorem FrameBuffer.get_blank (px : Fin 64) (py : Fin 32) : FrameBuffer.blank.get px py = false := by
  simp [FrameBuffer.get, FrameBuffer.blank]

/-! ## Drawing a list of pixels

A sprite is a list of pixels with their bits, drawn one after the other. -/

/-- A pixel of a sprite: its column, its row, its bit. -/
abbrev Dot := Fin 64 × Fin 32 × Bool

def drawDots (dots : List Dot) (acc : FrameBuffer × Bool) : FrameBuffer × Bool :=
  dots.foldl (fun a d => drawPixel a d.1 d.2.1 d.2.2) acc

/-- The pixels of one row. -/
def rowDots (ox : Byte) (py : Fin 32) (b : Byte) : List Dot :=
  (List.range 8).map (fun c => (pixelCol ox c, py, spriteBit b c))

/-- The pixels of a sprite. -/
def State.dots (s : State) (ox oy : Byte) (n : Nat) : List Dot :=
  (List.range n).flatMap (fun r => rowDots ox (pixelRow oy r) (s.spriteByte r))

theorem drawRow_eq_drawDots (ox : Byte) (py : Fin 32) (b : Byte) (acc : FrameBuffer × Bool) :
    drawRow ox py b acc = drawDots (rowDots ox py b) acc := by
  simp only [drawRow, drawDots, rowDots, List.foldl_map]

theorem State.drawSprite_eq_drawDots (s : State) (ox oy : Byte) (n : Nat) :
    s.drawSprite ox oy n = drawDots (s.dots ox oy n) (s.fb, false) := by
  simp only [State.drawSprite, drawDots, State.dots, List.foldl_flatMap, drawRow_eq_drawDots]

/-- A pixel that no dot names keeps its value. -/
theorem drawDots_get_other (dots : List Dot) (acc : FrameBuffer × Bool) (px : Fin 64) (py : Fin 32)
    (h : ∀ d ∈ dots, (d.1, d.2.1) ≠ (px, py)) : (drawDots dots acc).1.get px py = acc.1.get px py := by
  induction dots generalizing acc with
  | nil => rfl
  | cons d dots ih =>
    have hd := h d (by simp)
    rw [drawDots, List.foldl_cons, ← drawDots, ih _ (fun e he => h e (by simp [he]))]
    simp only [drawPixel, FrameBuffer.get_xorPixel]
    rw [if_neg]
    rintro ⟨rfl, rfl⟩
    exact hd rfl

/-- When the dots are at distinct pixels, each dot's pixel is XORed once with its bit. -/
theorem drawDots_get (dots : List Dot) (acc : FrameBuffer × Bool)
    (hn : (dots.map (fun d => (d.1, d.2.1))).Nodup) (d : Dot) (hd : d ∈ dots) :
    (drawDots dots acc).1.get d.1 d.2.1 = (acc.1.get d.1 d.2.1 ^^ d.2.2) := by
  induction dots generalizing acc with
  | nil => simp at hd
  | cons e dots ih =>
    rw [List.map_cons, List.nodup_cons] at hn
    rw [drawDots, List.foldl_cons, ← drawDots]
    rcases List.mem_cons.mp hd with rfl | hd
    · rw [drawDots_get_other]
      · simp [drawPixel, FrameBuffer.get_xorPixel]
      · intro f hf hfd
        exact hn.1 (List.mem_map.mpr ⟨f, hf, hfd⟩)
    · rw [ih _ hn.2 hd]
      simp only [drawPixel, FrameBuffer.get_xorPixel]
      rw [if_neg]
      rintro ⟨h1, h2⟩
      exact hn.1 (List.mem_map.mpr ⟨d, hd, by simp [h1, h2]⟩)

/-- When the dots are at distinct pixels, the collision is: some set bit meets a pixel that was set before any was drawn. -/
theorem drawDots_collision (dots : List Dot) (acc : FrameBuffer × Bool)
    (hn : (dots.map (fun d => (d.1, d.2.1))).Nodup) :
    (drawDots dots acc).2 = true ↔
      acc.2 = true ∨ ∃ d ∈ dots, d.2.2 = true ∧ acc.1.get d.1 d.2.1 = true := by
  induction dots generalizing acc with
  | nil => simp [drawDots]
  | cons e dots ih =>
    rw [List.map_cons, List.nodup_cons] at hn
    rw [drawDots, List.foldl_cons, ← drawDots, ih _ hn.2]
    have hsame : ∀ d ∈ dots, (drawPixel acc e.1 e.2.1 e.2.2).1.get d.1 d.2.1 = acc.1.get d.1 d.2.1 := by
      intro d hd
      simp only [drawPixel, FrameBuffer.get_xorPixel]
      rw [if_neg]
      rintro ⟨h1, h2⟩
      exact hn.1 (List.mem_map.mpr ⟨d, hd, by simp [h1, h2]⟩)
    constructor
    · rintro (h | ⟨d, hd, hb, hg⟩)
      · rcases (by simpa [drawPixel] using h : acc.2 = true ∨ e.2.2 = true ∧ acc.1.get e.1 e.2.1 = true) with h | h
        · exact .inl h
        · exact .inr ⟨e, by simp, h⟩
      · exact .inr ⟨d, by simp [hd], hb, by rwa [hsame d hd] at hg⟩
    · rintro (h | ⟨d, hd, hb, hg⟩)
      · exact .inl (by simp [drawPixel, h])
      · rcases List.mem_cons.mp hd with rfl | hd
        · exact .inl (by simp [drawPixel, hb, hg])
        · exact .inr ⟨d, hd, hb, by rwa [hsame d hd]⟩

/-! ## The dots of a sprite -/

theorem State.mem_dots (s : State) (ox oy : Byte) (n : Nat) (d : Dot) :
    d ∈ s.dots ox oy n ↔
      ∃ r c, r < n ∧ c < 8 ∧ d = (pixelCol ox c, pixelRow oy r, spriteBit (s.spriteByte r) c) := by
  simp only [State.dots, rowDots, List.mem_flatMap, List.mem_range, List.mem_map]
  constructor
  · rintro ⟨r, hr, c, hc, rfl⟩; exact ⟨r, c, hr, hc, rfl⟩
  · rintro ⟨r, c, hr, hc, rfl⟩; exact ⟨r, hr, c, hc, rfl⟩

theorem pixelCol_inj (ox : Byte) {c d : Nat} (hc : c < 8) (hd : d < 8) (h : pixelCol ox c = pixelCol ox d) : c = d := by
  simp only [pixelCol, Fin.mk.injEq] at h; omega

theorem pixelRow_inj (oy : Byte) {r q : Nat} (hr : r < 16) (hq : q < 16) (h : pixelRow oy r = pixelRow oy q) : r = q := by
  simp only [pixelRow, Fin.mk.injEq] at h; omega

/-- The 8 * n target pixels are pairwise distinct (R172 d). -/
theorem State.dots_nodup (s : State) (ox oy : Byte) (n : Nat) (hn : n ≤ 16) :
    ((s.dots ox oy n).map (fun d => (d.1, d.2.1))).Nodup := by
  have hmap : (s.dots ox oy n).map (fun d => (d.1, d.2.1)) =
      (List.range n).flatMap (fun r => (List.range 8).map (fun c => (pixelCol ox c, pixelRow oy r))) := by
    simp [State.dots, rowDots, List.map_flatMap, Function.comp_def]
  rw [hmap, List.nodup_flatMap]
  constructor
  · intro r _
    refine List.Nodup.map_on (fun c hc d hd h => ?_) List.nodup_range
    exact pixelCol_inj ox (List.mem_range.mp hc) (List.mem_range.mp hd) (Prod.mk.inj h).1
  · refine List.Pairwise.imp_of_mem (fun {r q} hr hq hrq => ?_) List.nodup_range
    intro p hp hp'
    obtain ⟨c, _, rfl⟩ := List.mem_map.mp hp
    obtain ⟨d, _, hd⟩ := List.mem_map.mp hp'
    have := pixelRow_inj oy (Nat.lt_of_lt_of_le (List.mem_range.mp hr) hn)
      (Nat.lt_of_lt_of_le (List.mem_range.mp hq) hn) (Prod.mk.inj hd).2.symm
    exact hrq this

/-- A target pixel is XORed with its sprite bit. -/
theorem State.drawSprite_get (s : State) (ox oy : Byte) {n r c : Nat} (hn : n ≤ 16) (hr : r < n) (hc : c < 8) :
    (s.drawSprite ox oy n).1.get (pixelCol ox c) (pixelRow oy r) =
      (s.fb.get (pixelCol ox c) (pixelRow oy r) ^^ spriteBit (s.spriteByte r) c) := by
  rw [State.drawSprite_eq_drawDots]
  exact drawDots_get _ _ (s.dots_nodup ox oy n hn) (pixelCol ox c, pixelRow oy r, spriteBit (s.spriteByte r) c)
    ((s.mem_dots ox oy n _).mpr ⟨r, c, hr, hc, rfl⟩)

/-- Every other pixel keeps its value. -/
theorem State.drawSprite_get_other (s : State) (ox oy : Byte) (n : Nat) (px : Fin 64) (py : Fin 32)
    (h : ∀ r c, r < n → c < 8 → ¬ (px = pixelCol ox c ∧ py = pixelRow oy r)) :
    (s.drawSprite ox oy n).1.get px py = s.fb.get px py := by
  rw [State.drawSprite_eq_drawDots, drawDots_get_other]
  intro d hd heq
  obtain ⟨r, c, hr, hc, rfl⟩ := (s.mem_dots ox oy n d).mp hd
  exact h r c hr hc ⟨(Prod.mk.inj heq).1.symm, (Prod.mk.inj heq).2.symm⟩

/-- The collision is: some sprite bit meets a pixel that was set before the sprite was drawn. -/
theorem State.drawSprite_collision (s : State) (ox oy : Byte) {n : Nat} (hn : n ≤ 16) :
    (s.drawSprite ox oy n).2 = true ↔
      ∃ r c, r < n ∧ c < 8 ∧ spriteBit (s.spriteByte r) c = true ∧
        s.fb.get (pixelCol ox c) (pixelRow oy r) = true := by
  rw [State.drawSprite_eq_drawDots, drawDots_collision _ _ (s.dots_nodup ox oy n hn)]
  constructor
  · rintro (h | ⟨d, hd, hb, hg⟩)
    · simp at h
    · obtain ⟨r, c, hr, hc, rfl⟩ := (s.mem_dots ox oy n d).mp hd
      exact ⟨r, c, hr, hc, hb, hg⟩
  · rintro ⟨r, c, hr, hc, hb, hg⟩
    exact .inr ⟨_, (s.mem_dots ox oy n _).mpr ⟨r, c, hr, hc, rfl⟩, hb, hg⟩

end Sys2Proof.Machine
end

