-- ==== Sys2Proof/Laws/PerInstr.lean ====
section
/-! SUPPORT. Facts about every instruction as syntax, one lemma per constructor. -/

/-- The operation family of an instruction: the high digit of its pattern (spec 30_encoding.md R74). -/
def Sys2Proof.Laws.EncodeFamily.family : Sys2Proof.Instr → Nat
  | .cls => 0x0
  | .ret => 0x0
  | .jp _ => 0x1
  | .call _ => 0x2
  | .seImm _ _ => 0x3
  | .sneImm _ _ => 0x4
  | .seReg _ _ => 0x5
  | .sneReg _ _ => 0x9
  | .ldImm _ _ => 0x6
  | .addImm _ _ => 0x7
  | .ldReg _ _ => 0x8
  | .orReg _ _ => 0x8
  | .andReg _ _ => 0x8
  | .xorReg _ _ => 0x8
  | .addReg _ _ => 0x8
  | .subReg _ _ => 0x8
  | .shr _ _ => 0x8
  | .subnReg _ _ => 0x8
  | .shl _ _ => 0x8
  | .ldI _ => 0xA
  | .jpV0 _ => 0xB
  | .rnd _ _ => 0xC
  | .drw _ _ _ => 0xD
  | .skp _ => 0xE
  | .sknp _ => 0xE
  | .ldVxDT _ => 0xF
  | .ldDTVx _ => 0xF
  | .ldSTVx _ => 0xF
  | .ldVxK _ => 0xF
  | .addI _ => 0xF
  | .ldF _ => 0xF
  | .bcd _ => 0xF
  | .store _ => 0xF
  | .read _ => 0xF

/-- The high nibble of an encoded instruction is its family, whatever its operands are. -/
def Sys2Proof.Laws.EncodeFamily.Statement (i : Sys2Proof.Instr) : Prop :=
  Sys2Proof.fieldOp (Sys2Proof.encode i) = Sys2Proof.Laws.EncodeFamily.family i

namespace Sys2Proof.Laws.EncodeFamily

/-- A word whose low 12 bits are `rest` has the family it was built with. -/
theorem of_toNat {w : Word} (op rest : Nat) (h : w.toNat = 4096 * op + rest) (hr : rest < 4096) : fieldOp w = op := by
  rw [fieldOp_eq, h]; omega

theorem ofA (op : Nat) (m nnn : Word) (hm : m.toNat = 4096 * op) : fieldOp (encodeA m nnn) = op :=
  of_toNat op _ (encodeA_toNat op m nnn hm) (Nat.mod_lt _ (by decide))

theorem ofXK (op : Nat) (m : Word) (x : Reg) (kk : Byte) (hm : m.toNat = 4096 * op) :
    fieldOp (encodeXK m x kk) = op :=
  of_toNat op (256 * x.val + kk.toNat) (by rw [encodeXK_toNat op m x kk hm]; omega)
    (by have := x.isLt; have := kk.isLt; omega)

theorem ofX (op kk : Nat) (m : Word) (x : Reg) (hk : kk < 256) (hm : m.toNat = 4096 * op + kk) :
    fieldOp (encodeX m x) = op :=
  of_toNat op (256 * x.val + kk) (by rw [encodeX_toNat op kk m x hk hm]; omega) (by have := x.isLt; omega)

theorem ofXY (op n : Nat) (m : Word) (x y : Reg) (hn : n < 16) (hm : m.toNat = 4096 * op + n) :
    fieldOp (encodeXY m x y) = op :=
  of_toNat op (256 * x.val + 16 * y.val + n) (by rw [encodeXY_toNat op n m x y hn hm]; omega)
    (by have := x.isLt; have := y.isLt; omega)

theorem ofXYN (op : Nat) (m : Word) (x y : Reg) (n : Fin 16) (hm : m.toNat = 4096 * op) :
    fieldOp (encodeXYN m x y n) = op :=
  of_toNat op (256 * x.val + 16 * y.val + n.val) (by rw [encodeXYN_toNat op m x y n hm]; omega)
    (by have := x.isLt; have := y.isLt; have := n.isLt; omega)

theorem cls : Statement .cls := by unfold Statement; decide
theorem ret : Statement .ret := by unfold Statement; decide
theorem jp (nnn : Word) : Statement (.jp nnn) := ofA 0x1 _ nnn rfl
theorem call (nnn : Word) : Statement (.call nnn) := ofA 0x2 _ nnn rfl
theorem seImm (x : Reg) (kk : Byte) : Statement (.seImm x kk) := ofXK 0x3 _ x kk rfl
theorem sneImm (x : Reg) (kk : Byte) : Statement (.sneImm x kk) := ofXK 0x4 _ x kk rfl
theorem seReg (x y : Reg) : Statement (.seReg x y) := ofXY 0x5 0x0 _ x y (by decide) rfl
theorem sneReg (x y : Reg) : Statement (.sneReg x y) := ofXY 0x9 0x0 _ x y (by decide) rfl
theorem ldImm (x : Reg) (kk : Byte) : Statement (.ldImm x kk) := ofXK 0x6 _ x kk rfl
theorem addImm (x : Reg) (kk : Byte) : Statement (.addImm x kk) := ofXK 0x7 _ x kk rfl
theorem ldReg (x y : Reg) : Statement (.ldReg x y) := ofXY 0x8 0x0 _ x y (by decide) rfl
theorem orReg (x y : Reg) : Statement (.orReg x y) := ofXY 0x8 0x1 _ x y (by decide) rfl
theorem andReg (x y : Reg) : Statement (.andReg x y) := ofXY 0x8 0x2 _ x y (by decide) rfl
theorem xorReg (x y : Reg) : Statement (.xorReg x y) := ofXY 0x8 0x3 _ x y (by decide) rfl
theorem addReg (x y : Reg) : Statement (.addReg x y) := ofXY 0x8 0x4 _ x y (by decide) rfl
theorem subReg (x y : Reg) : Statement (.subReg x y) := ofXY 0x8 0x5 _ x y (by decide) rfl
theorem shr (x y : Reg) : Statement (.shr x y) := ofXY 0x8 0x6 _ x y (by decide) rfl
theorem subnReg (x y : Reg) : Statement (.subnReg x y) := ofXY 0x8 0x7 _ x y (by decide) rfl
theorem shl (x y : Reg) : Statement (.shl x y) := ofXY 0x8 0xE _ x y (by decide) rfl
theorem ldI (nnn : Word) : Statement (.ldI nnn) := ofA 0xA _ nnn rfl
theorem jpV0 (nnn : Word) : Statement (.jpV0 nnn) := ofA 0xB _ nnn rfl
theorem rnd (x : Reg) (kk : Byte) : Statement (.rnd x kk) := ofXK 0xC _ x kk rfl
theorem drw (x y : Reg) (n : Fin 16) : Statement (.drw x y n) := ofXYN 0xD _ x y n rfl
theorem skp (x : Reg) : Statement (.skp x) := ofX 0xE 0x9E _ x (by decide) rfl
theorem sknp (x : Reg) : Statement (.sknp x) := ofX 0xE 0xA1 _ x (by decide) rfl
theorem ldVxDT (x : Reg) : Statement (.ldVxDT x) := ofX 0xF 0x07 _ x (by decide) rfl
theorem ldDTVx (x : Reg) : Statement (.ldDTVx x) := ofX 0xF 0x15 _ x (by decide) rfl
theorem ldSTVx (x : Reg) : Statement (.ldSTVx x) := ofX 0xF 0x18 _ x (by decide) rfl
theorem ldVxK (x : Reg) : Statement (.ldVxK x) := ofX 0xF 0x0A _ x (by decide) rfl
theorem addI (x : Reg) : Statement (.addI x) := ofX 0xF 0x1E _ x (by decide) rfl
theorem ldF (x : Reg) : Statement (.ldF x) := ofX 0xF 0x29 _ x (by decide) rfl
theorem bcd (x : Reg) : Statement (.bcd x) := ofX 0xF 0x33 _ x (by decide) rfl
theorem store (x : Reg) : Statement (.store x) := ofX 0xF 0x55 _ x (by decide) rfl
theorem read (x : Reg) : Statement (.read x) := ofX 0xF 0x65 _ x (by decide) rfl

end Sys2Proof.Laws.EncodeFamily
end

