-- ==== Sys2Proof/Laws/Step.lean ====
section
/-! SUPPORT. What a step, a CPU step and the instructions that branch can do, said once. -/

namespace Sys2Proof.Machine

/-! ## A step is the due move -/

/-- A step makes the due move, on the state in which that move is used up. -/
theorem step_eq (s : State) : step s = s.afterDue.move s.dueMove := by
  obtain ⟨v, i, pc, dt, st, stk, sp, mem, fb, rs, fault, key, policy, glyphRom, draws, schedule, reports⟩ := s
  cases schedule <;> rfl

@[simp] theorem State.fetch_afterDue (s : State) : s.afterDue.fetch = s.fetch := rfl

@[simp] theorem State.lowestKey_afterDue (s : State) : s.afterDue.lowestKey = s.lowestKey := rfl

/-- The fetch depends on the pc and on memory only. -/
theorem State.fetch_congr {s t : State} (hr : t.glyphRom = s.glyphRom) (hm : t.mem = s.mem) (hp : t.pc = s.pc) :
    t.fetch = s.fetch := by
  simp only [State.fetch, hp, State.memRead_congr hr hm]

/-- What a CPU step can do: nothing but a report in IDLE, nothing in FAULTED and STOPPED, one instruction or an
invalid word otherwise. -/
theorem State.cpuStep_cases {s t : State} (h : s.cpuStep = .next t) :
    (s.rs = .idle ∧ t = { s with reports := s.reports ++ [.noProgramLoaded] }) ∨
    ((s.rs = .faulted ∨ s.rs = .stopped) ∧ t = s) ∨
    ((s.rs = .running ∨ s.rs = .waitKey) ∧
      ((∃ i, decode s.fetch = .instr i ∧ exec i s = .next t) ∨
       (∃ r, decode s.fetch = .reject r ∧ t = s.invalidInstruction s.fetch))) := by
  unfold State.cpuStep at h
  split at h <;> rename_i hr
  · injection h with h; exact .inl ⟨hr, h.symm⟩
  · injection h with h; exact .inr (.inl ⟨.inl hr, h.symm⟩)
  · injection h with h; exact .inr (.inl ⟨.inr hr, h.symm⟩)
  · unfold State.runInstruction at h
    split at h <;> rename_i hd
    · exact .inr (.inr ⟨.inl hr, .inl ⟨_, hd, h⟩⟩)
    · injection h with h; exact .inr (.inr ⟨.inl hr, .inr ⟨_, hd, h.symm⟩⟩)
  · unfold State.runInstruction at h
    split at h <;> rename_i hd
    · exact .inr (.inr ⟨.inr hr, .inl ⟨_, hd, h⟩⟩)
    · injection h with h; exact .inr (.inr ⟨.inr hr, .inr ⟨_, hd, h.symm⟩⟩)

/-! ## The instructions with two outcomes -/

theorem exec_ret_cases {s t : State} (h : exec .ret s = .next t) :
    (s.sp.val = 0 ∧ t = s.raiseFault .stackUnderflow (encode .ret)) ∨
    ∃ hp : 0 < s.sp.val,
      t = ({ s with sp := ⟨s.sp.val - 1, by omega⟩ } : State).goto (s.stk[s.sp.val - 1] + 2) := by
  rcases s.pop_cases with ⟨h0, hp⟩ | ⟨h0, hp⟩ <;> simp only [exec, execRet, hp] at h <;> injection h with h
  · exact .inl ⟨h0, h.symm⟩
  · exact .inr ⟨h0, h.symm⟩

theorem exec_call_cases {nnn : Word} {s t : State} (h : exec (.call nnn) s = .next t) :
    (s.sp.val = 16 ∧ t = s.raiseFault .stackOverflow (encode (.call nnn))) ∨
    ∃ hp : s.sp.val < 16,
      t = ({ s with stk := s.stk.set s.sp.val s.pc, sp := ⟨s.sp.val + 1, by omega⟩ } : State).goto nnn := by
  rcases s.push_cases s.pc with ⟨h0, hp⟩ | ⟨h0, hp⟩ <;> simp only [exec, execCall, hp] at h <;> injection h with h
  · exact .inl ⟨h0, h.symm⟩
  · exact .inr ⟨h0, h.symm⟩

theorem exec_ldVxK_cases {x : Reg} {s t : State} (h : exec (.ldVxK x) s = .next t) :
    (s.lowestKey = none ∧ t = { s with rs := .waitKey }) ∨
    ∃ k, s.lowestKey = some k ∧
      t = (({ s with rs := .running } : State).setV x (byteOf k.val)).advance := by
  simp only [exec, execLdVxK] at h
  split at h <;> rename_i hk <;> injection h with h
  · exact .inr ⟨_, hk, h.symm⟩
  · exact .inl ⟨hk, h.symm⟩

/-- An Unknown word leaves one of two states (R207). -/
theorem State.invalidInstruction_cases (s : State) (w : Word) :
    (s.policy = .halt ∧ s.invalidInstruction w = s.raiseFault .invalidInstruction w) ∨
    (s.policy = .skip ∧ s.invalidInstruction w =
      { s with fault := some ⟨.invalidInstruction, w, s.pc⟩, pc := s.nextPc }) := by
  unfold State.invalidInstruction
  cases s.policy
  · exact .inl ⟨rfl, rfl⟩
  · exact .inr ⟨rfl, rfl⟩

/-! ## Placing a word -/

/-- A state with a word placed at its pc fetches that word. -/
theorem State.fetch_placeWord (s : State) (w : Word) : (s.placeWord w).fetch = w := by
  have e := State.writeBytes_eq s s.pc.toNat (bytesOfWord w)
  have hpc : (s.placeWord w).pc = s.pc := by simp only [State.placeWord]; rw [e]
  have hrd : ∀ a, (s.placeWord w).memRead a = (s.writeBytes s.pc.toNat (bytesOfWord w)).memRead a := fun a => rfl
  have h0 := State.writeBytes_memRead_written s s.pc.toNat (bytesOfWord w) (by simp [bytesOfWord, Config.memSize]) 0 (by simp [bytesOfWord])
  have h1 := State.writeBytes_memRead_written s s.pc.toNat (bytesOfWord w) (by simp [bytesOfWord, Config.memSize]) 1 (by simp [bytesOfWord])
  rw [State.fetch, hpc, hrd, hrd, h1, show s.pc.toNat = s.pc.toNat + 0 from rfl]
  exact (congrArg (fun b => wordOfBytes b _) h0).trans (wordOfBytes_bytes w)

/-- The step of a state with a word placed runs the instruction the word decodes to. -/
theorem step_withFetchWord (s : State) (nbits w : Nat) (i : Instr) (h : decode (tableWord nbits w) = .instr i) :
    step (s.withFetchWord nbits w) = exec i (s.withFetchWord nbits w) := by
  have hs : (s.withFetchWord nbits w).schedule = [] := rfl
  have hf : (s.withFetchWord nbits w).fetch = tableWord nbits w := State.fetch_placeWord s _
  have hr : (s.withFetchWord nbits w).rs.active = true := by
    simp only [State.withFetchWord, State.placeWord]
    split <;> rename_i h
    · exact h
    · rfl
  unfold step State.nextMove
  rw [hs]
  simp only [State.cpuStep, State.runInstruction]
  split <;> rename_i hrs <;> rw [hrs] at hr <;> first | (simp [RunState.active] at hr; done) | rw [hf, h]

end Sys2Proof.Machine
end

