-- ==== Sys2Proof/Tests/Slice0.lean ====
section
/-! SUPPORT. Tests of the model. Every expected result is written out from spec 95_test_vectors.md (the section is
named) or from the rule named; the last part shows, for each obligation with hypotheses, inputs that meet them. -/

namespace Sys2Proof.Tests

open Sys2Proof.Machine

/-! ## Helpers -/

/-- The outcome is a next state that passes the check. -/
def after (o : Host.Outcome State Fault Refusal) (check : State → Bool) : Bool :=
  match o with
  | .next t => check t
  | .fault _ | .refused _ => false

/-- A running machine at an address, all else as at reset. -/
def runAt (pc : Word) : State := { State.reset with rs := .running, pc := pc }

/-- A running machine at 0x200 with one or two registers set. -/
def with1 (r : Reg) (a : Byte) : State := (runAt 0x200).setV r a
def with2 (r : Reg) (a : Byte) (q : Reg) (b : Byte) : State := ((runAt 0x200).setV r a).setV q b

/-- A machine with a word at its pc, which is 0x200. -/
def fetching (w : Word) : State := (runAt 0x200).placeWord w

/-- A machine with one move due. -/
def due (e : Event) (s : State) : State := { s with schedule := [e] }

/-- The pixels named, among those of a list of candidates, are exactly the lit ones. -/
def litOnly (fb : FrameBuffer) (lit : List (Fin 64 × Fin 32)) : Bool :=
  lit.all (fun p => fb.get p.1 p.2) && (fb.toList.map (fun row => row.toList.count true)).sum == lit.length

/-! ## Well-formedness: each check refuses an ill-formed term -/

theorem test_wellFormed_refuses :
    Instr.wellFormed (.jp 0x1234) = false ∧ Instr.wellFormed (.call 0x1000) = false ∧
    Instr.wellFormed (.ldI 0xF000) = false ∧ Instr.wellFormed (.jpV0 0x8123) = false := by decide

theorem test_wellFormed_accepts :
    Instr.wellFormed (.jp 0x0FFF) = true ∧ Instr.wellFormed (.call 0) = true ∧ Instr.wellFormed (.ldI 0x0FFF) = true ∧
    Instr.wellFormed (.jpV0 0x300) = true ∧ Instr.wellFormed (.drw 15 15 15) = true := by decide

/-! ## Decoding (section 2.1) -/

theorem test_decode_no_operand : decode 0b0000000011100000 = .instr .cls ∧ decode 0b0000000011101110 = .instr .ret := by
  decide

theorem test_decode_address :
    decode 0b0001001000110100 = .instr (.jp 0x234) ∧ decode 0b0010111111111111 = .instr (.call 0xFFF) ∧
    decode 0b1010000100100011 = .instr (.ldI 0x123) ∧ decode 0b1011001100000000 = .instr (.jpV0 0x300) := by decide

theorem test_decode_immediate :
    decode 0b0011101001111111 = .instr (.seImm 0xA 0x7F) ∧ decode 0b0100101100000000 = .instr (.sneImm 0xB 0) ∧
    decode 0b0110111100000001 = .instr (.ldImm 0xF 1) ∧ decode 0b0111000011111111 = .instr (.addImm 0 0xFF) ∧
    decode 0b1100001100001111 = .instr (.rnd 3 0x0F) := by decide

theorem test_decode_registers :
    decode 0b0101000100100000 = .instr (.seReg 1 2) ∧ decode 0b1001000100100000 = .instr (.sneReg 1 2) ∧
    decode 0b1000101010110000 = .instr (.ldReg 0xA 0xB) ∧ decode 0b1000101010110001 = .instr (.orReg 0xA 0xB) ∧
    decode 0b1000101010110010 = .instr (.andReg 0xA 0xB) ∧ decode 0b1000101010110011 = .instr (.xorReg 0xA 0xB) := by
  decide

theorem test_decode_alu :
    decode 0b1000101010110100 = .instr (.addReg 0xA 0xB) ∧ decode 0b1000101010110101 = .instr (.subReg 0xA 0xB) ∧
    decode 0b1000101010110110 = .instr (.shr 0xA 0xB) ∧ decode 0b1000101010110111 = .instr (.subnReg 0xA 0xB) ∧
    decode 0b1000101010111110 = .instr (.shl 0xA 0xB) := by decide

theorem test_decode_draw_and_keys :
    decode 0b1101000100100101 = .instr (.drw 1 2 5) ∧ decode 0b1101000100100000 = .instr (.drw 1 2 0) ∧
    decode 0b1110010010011110 = .instr (.skp 4) ∧ decode 0b1110010010100001 = .instr (.sknp 4) := by decide

theorem test_decode_misc :
    decode 0b1111000100000111 = .instr (.ldVxDT 1) ∧ decode 0b1111010100001010 = .instr (.ldVxK 5) ∧
    decode 0b1111000000010101 = .instr (.ldDTVx 0) ∧ decode 0b1111000000011000 = .instr (.ldSTVx 0) ∧
    decode 0b1111001000011110 = .instr (.addI 2) ∧ decode 0b1111000000101001 = .instr (.ldF 0) ∧
    decode 0b1111000000110011 = .instr (.bcd 0) ∧ decode 0b1111001001010101 = .instr (.store 2) ∧
    decode 0b1111001001100101 = .instr (.read 2) := by decide

theorem test_decode_unknown_first :
    decode 0x00E1 = .reject (.unknown 0x00E1) ∧ decode 0x01E0 = .reject (.unknown 0x01E0) ∧
    decode 0x0000 = .reject (.unknown 0x0000) ∧ decode 0x0FFF = .reject (.unknown 0x0FFF) ∧
    decode 0x5121 = .reject (.unknown 0x5121) ∧ decode 0x8AB8 = .reject (.unknown 0x8AB8) := by decide

theorem test_decode_unknown_alu :
    decode 0x8ABD = .reject (.unknown 0x8ABD) ∧ decode 0x8ABF = .reject (.unknown 0x8ABF) ∧
    decode 0x912F = .reject (.unknown 0x912F) ∧ decode 0xE49F = .reject (.unknown 0xE49F) ∧
    decode 0xE4A0 = .reject (.unknown 0xE4A0) ∧ decode 0xE400 = .reject (.unknown 0xE400) := by decide

theorem test_decode_unknown_misc :
    decode 0xF000 = .reject (.unknown 0xF000) ∧ decode 0xF106 = .reject (.unknown 0xF106) ∧
    decode 0xF108 = .reject (.unknown 0xF108) ∧ decode 0xF075 = .reject (.unknown 0xF075) ∧
    decode 0xF085 = .reject (.unknown 0xF085) ∧ decode 0xF1FF = .reject (.unknown 0xF1FF) := by decide

theorem test_decodeBytes :
    decodeBytes [0x12, 0x34, 0x56] = (.instr (.jp 0x234), [0x56]) ∧ decodeBytes [0x12] = (.reject .truncated, [0x12]) := by
  decide

theorem test_encode :
    encode (.call 0xFFF) = 0x2FFF ∧ encode (.seImm 0xA 0x7F) = 0x3A7F ∧ encode (.subReg 0xA 0xB) = 0x8AB5 ∧
    encode (.shl 0xA 0xB) = 0x8ABE ∧ encode (.drw 1 2 5) = 0xD125 ∧ encode (.skp 4) = 0xE49E ∧
    encode (.read 2) = 0xF265 := by decide

theorem test_decodeTableWord :
    decodeTableWord 16 0x00E0 = some .cls ∧ decodeTableWord 16 0x1234 = some (.jp 0x234) ∧
    decodeTableWord 16 0 = none := by decide

/-! ## Control transfer (section 2.4) -/

theorem test_jp : after (exec (.jp 0xFFF) (runAt 0x200)) (fun t => t.pc == 0xFFF) = true := by decide
theorem test_jp_masks : after (exec (.jp 0x1234) (runAt 0x200)) (fun t => t.pc == 0x0234) = true := by decide

theorem test_call : after (exec (.call 0x20A) (runAt 0x204))
    (fun t => t.stk[0] == 0x0204 && t.sp == 1 && t.pc == 0x20A) = true := by decide
theorem test_call_full : after (exec (.call 0x300) { runAt 0x400 with sp := 16 })
    (fun t => t.fault == some ⟨.stackOverflow, 0x2300, 0x400⟩ && t.rs == .faulted && t.pc == 0x400 && t.sp == 16) = true := by
  decide

theorem test_ret_wraps : after (exec .ret { runAt 0x300 with sp := 1, stk := (Vector.replicate 16 0).set 0 0x0FFE })
    (fun t => t.sp == 0 && t.pc == 0x000 && t.stk[0] == 0x0FFE) = true := by decide
theorem test_ret_empty : after (exec .ret (runAt 0x300))
    (fun t => t.fault == some ⟨.stackUnderflow, 0x00EE, 0x300⟩ && t.rs == .faulted && t.pc == 0x300) = true := by decide

theorem test_seImm_wraps : after (exec (.seImm 15 0x01) ((runAt 0xFFE).setV 15 1)) (fun t => t.pc == 0x002) = true := by decide
theorem test_seImm_not : after (exec (.seImm 3 0x2A) ((runAt 0x300).setV 3 0x2B)) (fun t => t.pc == 0x302) = true := by decide
theorem test_sneImm : after (exec (.sneImm 3 0x2A) ((runAt 0x300).setV 3 0x2B)) (fun t => t.pc == 0x304) = true := by decide
theorem test_sneImm_not : after (exec (.sneImm 3 0x2A) ((runAt 0x300).setV 3 0x2A)) (fun t => t.pc == 0x302) = true := by decide
theorem test_seReg : after (exec (.seReg 1 2) (with2 1 7 2 7)) (fun t => t.pc == 0x204) = true := by decide
theorem test_seReg_not : after (exec (.seReg 1 2) (with2 1 7 2 8)) (fun t => t.pc == 0x202) = true := by decide
theorem test_sneReg : after (exec (.sneReg 1 2) (with2 1 7 2 8)) (fun t => t.pc == 0x204) = true := by decide
theorem test_sneReg_same : after (exec (.sneReg 1 1) (with1 1 7)) (fun t => t.pc == 0x202) = true := by decide
theorem test_jpV0_masks : after (exec (.jpV0 0xFFF) (with2 0 0xFF 15 9)) (fun t => t.pc == 0x0FE && t.getV 15 == 9) = true := by
  decide

/-! ## Loads, logic, random (section 2.3) -/

theorem test_ldImm : after (exec (.ldImm 0 0xCD) (runAt 0x200)) (fun t => t.getV 0 == 0xCD && t.pc == 0x202) = true := by decide
theorem test_addImm : after (exec (.addImm 0 1) (with1 0 0xFF)) (fun t => t.getV 0 == 0 && t.getV 15 == 0) = true := by decide
theorem test_addImm_vf : after (exec (.addImm 0 0xFF) (with2 0 0 15 1)) (fun t => t.getV 0 == 0xFF && t.getV 15 == 1) = true := by
  decide
theorem test_ldReg : after (exec (.ldReg 1 2) (with2 1 0 2 0xAB)) (fun t => t.getV 1 == 0xAB && t.getV 2 == 0xAB) = true := by
  decide
theorem test_orReg : after (exec (.orReg 1 2) ((with2 1 0xF0 2 0x0F).setV 15 1))
    (fun t => t.getV 1 == 0xFF && t.getV 15 == 1) = true := by decide
theorem test_andReg : after (exec (.andReg 1 2) (with2 1 0xF3 2 0x3F)) (fun t => t.getV 1 == 0x33) = true := by decide
theorem test_xorReg : after (exec (.xorReg 1 2) (with2 1 0xFF 2 0x0F)) (fun t => t.getV 1 == 0xF0) = true := by decide
theorem test_xorReg_same : after (exec (.xorReg 3 3) (with2 3 0x90 15 0x55))
    (fun t => t.getV 3 == 0 && t.getV 15 == 0x55) = true := by decide

/-- Cxkk on whatever byte is drawn: a zero mask gives 0, and the draw is used up. -/
theorem test_rnd_zero_mask : ∃ t, exec (.rnd 3 0) (with1 3 9) = .next t ∧ t.getV 3 = 0 ∧ t.draws = 1 :=
  ⟨_, rfl, by show Config.freeRandom 0 &&& 0 = 0; simp, rfl⟩

/-! ## ALU with flags (section 2.2) -/

theorem test_addReg : after (exec (.addReg 1 2) (with2 1 0xC8 2 0x64)) (fun t => t.getV 1 == 0x2C && t.getV 15 == 1) = true := by
  decide
theorem test_addReg_vf : after (exec (.addReg 15 1) (with2 15 0xF0 1 0x20))
    (fun t => t.getV 15 == 1 && t.getV 1 == 0x20) = true := by decide
theorem test_subReg : after (exec (.subReg 1 2) (with2 1 3 2 5)) (fun t => t.getV 1 == 0xFE && t.getV 15 == 0) = true := by decide
theorem test_subReg_equal : after (exec (.subReg 1 2) (with2 1 7 2 7)) (fun t => t.getV 1 == 0 && t.getV 15 == 0) = true := by
  decide
theorem test_subnReg : after (exec (.subnReg 1 2) (with2 1 3 2 5)) (fun t => t.getV 1 == 2 && t.getV 15 == 1) = true := by decide
theorem test_subnReg_equal : after (exec (.subnReg 1 2) (with2 1 0x80 2 0x80)) (fun t => t.getV 1 == 0 && t.getV 15 == 0) = true := by
  decide
theorem test_shr : after (exec (.shr 1 2) (with2 1 0x81 2 0xFF))
    (fun t => t.getV 1 == 0x40 && t.getV 15 == 1 && t.getV 2 == 0xFF) = true := by decide
theorem test_shr_vf : after (exec (.shr 15 15) (with1 15 3)) (fun t => t.getV 15 == 1) = true := by decide
theorem test_shl : after (exec (.shl 1 2) (with2 1 0x81 2 0xFF)) (fun t => t.getV 1 == 0x02 && t.getV 15 == 1) = true := by decide
theorem test_shl_vf : after (exec (.shl 15 15) (with1 15 3)) (fun t => t.getV 15 == 0) = true := by decide

/-! ## Index register and memory (section 2.5) -/

theorem test_ldI : after (exec (.ldI 0xFFF) (runAt 0x200)) (fun t => t.i == 0xFFF) = true := by decide
theorem test_addI_wraps : after (exec (.addI 2) { with2 2 0xFF 15 7 with i := 0xFFF })
    (fun t => t.i == 0x0FE && t.getV 15 == 7) = true := by decide
theorem test_ldF : after (exec (.ldF 0) (with1 0 0x0F)) (fun t => t.i == 0x04B) = true := by decide
theorem test_ldF_low_nibble : after (exec (.ldF 0) (with1 0 0x1A)) (fun t => t.i == 0x032) = true := by decide

theorem test_bcd : after (exec (.bcd 0) { with1 0 205 with i := 0x300 })
    (fun t => t.memRead 0x300 == 2 && t.memRead 0x301 == 0 && t.memRead 0x302 == 5 && t.i == 0x300) = true := by decide
theorem test_bcd_wraps : after (exec (.bcd 0) { with1 0 205 with i := 0xFFF })
    (fun t => t.memRead 0xFFF == 2 && t.memRead 0x000 == 0 && t.memRead 0x001 == 5) = true := by decide

theorem test_store : after (exec (.store 1) { (with2 0 0x11 1 0x22).setV 2 0x33 with i := 0xFFF })
    (fun t => t.memRead 0xFFF == 0x11 && t.memRead 0x000 == 0x22 && t.memRead 0x001 == 0x90 && t.i == 0xFFF) = true := by decide
theorem test_read : after (exec (.read 2) (({ with1 3 0x99 with i := 0x400 } : State).writeBytes 0x400 [0x11, 0x22, 0x33, 0x44]))
    (fun t => t.getV 0 == 0x11 && t.getV 1 == 0x22 && t.getV 2 == 0x33 && t.getV 3 == 0x99 && t.i == 0x400) = true := by decide

/-! ## Display (section 2.6) -/

/-- A machine whose sprite bytes stand at I = 0x300. -/
def sprite (s : State) (bytes : List Byte) : State := { s.writeBytes 0x300 bytes with i := 0x300 }

theorem test_cls : after (exec .cls { with1 15 1 with fb := (FrameBuffer.blank.xorPixel 4 3 true).xorPixel 63 31 true })
    (fun t => litOnly t.fb [] && t.getV 15 == 1) = true := by decide
theorem test_drw_wraps : after (exec (.drw 0 1 1) (sprite (with2 0 63 1 31) [0xFF]))
    (fun t => litOnly t.fb [(63, 31), (0, 31), (1, 31), (2, 31), (3, 31), (4, 31), (5, 31), (6, 31)] && t.getV 15 == 0) = true := by
  decide
theorem test_drw_collides : after (exec (.drw 0 1 1)
      { sprite (with2 0 0 1 0) [0xC0] with fb := FrameBuffer.blank.xorPixel 1 0 true })
    (fun t => litOnly t.fb [(0, 0)] && t.getV 15 == 1) = true := by decide

/-! ## Keys and timers (section 2.7) -/

/-- A machine at 0x220 with the keys listed pressed. -/
def keys (l : List (Fin 16)) : State := { runAt 0x220 with key := Vector.ofFn (fun k => l.contains k) }

theorem test_skp : after (exec (.skp 4) ((keys [10]).setV 4 0x1A)) (fun t => t.pc == 0x224) = true := by decide
theorem test_skp_not : after (exec (.skp 4) ((keys []).setV 4 0x0A)) (fun t => t.pc == 0x222) = true := by decide
theorem test_sknp : after (exec (.sknp 4) ((keys []).setV 4 0x0A)) (fun t => t.pc == 0x224) = true := by decide
theorem test_sknp_not : after (exec (.sknp 4) ((keys [10]).setV 4 0x0A)) (fun t => t.pc == 0x222) = true := by decide
theorem test_ldVxK_waits : after (exec (.ldVxK 5) ((keys []).setV 5 0x77))
    (fun t => t.rs == .waitKey && t.pc == 0x220 && t.getV 5 == 0x77) = true := by decide
theorem test_ldVxK_least : after (exec (.ldVxK 5) { keys [7, 3] with rs := .waitKey })
    (fun t => t.rs == .running && t.pc == 0x222 && t.getV 5 == 3) = true := by decide
theorem test_ldVxDT : after (exec (.ldVxDT 1) { runAt 0x200 with dt := 0x3C }) (fun t => t.getV 1 == 0x3C && t.dt == 0x3C) = true := by
  decide
theorem test_ldDTVx : after (exec (.ldDTVx 0) (with1 0 3)) (fun t => t.dt == 3 && t.st == 0) = true := by decide
theorem test_ldSTVx : after (exec (.ldSTVx 0) (with1 0 0x1E)) (fun t => t.st == 0x1E && t.dt == 0) = true := by decide

/-! ## The step, the timer and the host (sections 2.4, 2.7, 2.8) -/

theorem test_reset_lists_nothing : State.reset.rs = .idle ∧ State.reset.memRead 0x000 = 0xF0 ∧
    State.reset.memRead 0x04F = 0x80 ∧ State.reset.memRead 0x050 = 0 := by decide

theorem test_withFetchWord : after (step (State.reset.withFetchWord 16 0x60CD)) (fun t => t.getV 0 == 0xCD && t.pc == 2) = true := by
  decide

theorem test_fetch_wraps : after (step (({ runAt 0xFFF with glyphRom := Config.defaultGlyphRom } : State).memWrite 0xFFF 0x60))
    (fun t => t.getV 0 == 0xF0 && t.pc == 0x001) = true := by decide

theorem test_unknown_halt : after (step (runAt 0x250))
    (fun t => t.fault == some ⟨.invalidInstruction, 0x0000, 0x250⟩ && t.rs == .faulted && t.pc == 0x250) = true := by decide
theorem test_unknown_skip : after (step { runAt 0x250 with policy := .skip })
    (fun t => t.fault == some ⟨.invalidInstruction, 0x0000, 0x250⟩ && t.rs == .running && t.pc == 0x252) = true := by decide

theorem test_idle_step : after (step State.reset) (fun t => t.reports == [.noProgramLoaded] && t.rs == .idle) = true := by decide

theorem test_tick : after (step (due .tick { runAt 0x200 with dt := 2, st := 0 })) (fun t => t.dt == 1 && t.st == 0) = true := by
  decide
theorem test_tick_faulted : after (step (due .tick { runAt 0x200 with dt := 5, rs := .faulted })) (fun t => t.dt == 5) = true := by
  decide

theorem test_load : after (step (due (.load [0x00, 0xE0, 0x12, 0x00]) State.reset))
    (fun t => t.memRead 0x201 == 0xE0 && t.memRead 0x202 == 0x12 && t.memRead 0 == 0xF0 && t.pc == 0x200 && t.rs == .running) = true := by
  decide
theorem test_load_running : after (step (due (.load [1]) (runAt 0x300))) (fun t => t.memRead 0x200 == 0 && t.pc == 0x300) = true := by
  decide

theorem test_unload : after (step (due .unload (((with1 3 5).memWrite 0x300 7).memWrite 0x010 9)))
    (fun t => t.memRead 0x300 == 0 && t.memRead 0x010 == 9 && t.getV 3 == 5 && t.rs == .idle) = true := by decide
theorem test_stop : after (step (due .stop { runAt 0x200 with rs := .waitKey })) (fun t => t.rs == .stopped) = true := by decide
theorem test_setKey : after (step (due (.setKey 15 true) State.reset)) (fun t => t.key[15] && !t.key[14]) = true := by decide
theorem test_host_reset : after (step (due .reset ((with1 3 5).memWrite 0x010 9)))
    (fun t => t.getV 3 == 0 && t.memRead 0x010 == 0x10 && t.rs == .idle && t.pc == 0) = true := by decide

/-- Memory keeps its canonical form: writing what an unlisted address reads as removes the entry. -/
theorem test_memory_canonical : (((runAt 0).memWrite 0x300 7).memWrite 0x300 0).mem = [] ∧
    (((runAt 0).memWrite 0x300 7).memWrite 0x200 8).mem = [(0x200, 8), (0x300, 7)] ∧
    (((runAt 0).memWrite 0x1000 0xF0).mem = []) := by decide

/-! ## Witnesses: inputs that meet the hypotheses of each obligation -/

theorem witness_DecodeInvertsEncode : Instr.wellFormed (.jp 0xFFF) = true ∧ Instr.wellFormed (.shr 15 7) = true := by decide

theorem witness_EncodeInvertsDecode : decode 0x8AB6 = .instr (.shr 0xA 0xB) := by decide

theorem witness_DecodeFollowsOpcodeTable :
    ∃ (w : Word) (r q : OpcodeRow), r ∈ opcodeTable ∧ q ∈ opcodeTable ∧ r.holds w = true ∧ q.holds w = true :=
  ⟨0x00E0, ⟨"00E0", 0xFFFF, 0x00E0, fun _ => .cls⟩, ⟨"00E0", 0xFFFF, 0x00E0, fun _ => .cls⟩,
    List.Mem.head _, List.Mem.head _, by decide, by decide⟩

/-- One word of each of the six families, at the edge of its range. -/
theorem witness_UnknownWordsAreExactly :
    decode 0x00EF = .reject (.unknown 0x00EF) ∧ decode 0x5FF1 = .reject (.unknown 0x5FF1) ∧
    decode 0x8008 = .reject (.unknown 0x8008) ∧ decode 0x8FFF = .reject (.unknown 0x8FFF) ∧
    decode 0x9FFF = .reject (.unknown 0x9FFF) ∧ decode 0xE09D = .reject (.unknown 0xE09D) ∧
    decode 0xF066 = .reject (.unknown 0xF066) := by decide

/-- A step in RUNNING and one in WAIT_KEY. -/
theorem witness_StepRunsDecodedInstruction :
    ((fetching 0x00E0).dueMove = .cpuStep ∧ (fetching 0x00E0).rs = .running ∧
      decode (fetching 0x00E0).fetch = .instr .cls) ∧
    (({ fetching 0xF50A with rs := .waitKey } : State).dueMove = .cpuStep ∧
      decode ({ fetching 0xF50A with rs := .waitKey } : State).fetch = .instr (.ldVxK 5)) := by decide

theorem witness_UnknownWordFaultsByPolicy :
    ((runAt 0x250).dueMove = .cpuStep ∧ decode (runAt 0x250).fetch = .reject (.unknown (runAt 0x250).fetch) ∧
      (runAt 0x250).policy = .halt) ∧
    (decode ({ runAt 0xFFE with policy := .skip } : State).fetch =
      .reject (.unknown ({ runAt 0xFFE with policy := .skip } : State).fetch)) := by decide

theorem witness_IdleCpuStepReports : State.reset.dueMove = .cpuStep ∧ State.reset.rs = .idle := by decide

/-- Each of the four moves, in each of the two run states. -/
theorem witness_HaltedAbsorbsMoves :
    ∀ r ∈ [RunState.faulted, .stopped], ∀ e ∈ [Event.cpuStep, .tick, .stop, .load [1]],
      (due e { runAt 0x200 with rs := r }).rs = r ∧ (due e { runAt 0x200 with rs := r }).dueMove = e := by decide

/-- The edges of the words with op = 1 and with op = 0xB. -/
theorem witness_JumpSetsMaskedPc : (0x1000 : Word).toNat / 4096 = 1 ∧ (0x1FFF : Word).toNat / 4096 = 1 := by decide

theorem witness_IndexedJumpAddsV0 : (0xB000 : Word).toNat / 4096 = 11 ∧ (0xBFFF : Word).toNat / 4096 = 11 := by decide

/-- SP at both ends of the range in which a CALL succeeds. -/
theorem witness_CallPushesOwnAddress :
    (0 : Fin 16).val = (runAt 0x200).sp.val ∧ (15 : Fin 16).val = ({ runAt 0x200 with sp := 15 } : State).sp.val := by decide

theorem witness_ReturnPopsPastTheCall :
    (0 : Fin 16).val + 1 = ({ runAt 0x200 with sp := 1 } : State).sp.val ∧
    (15 : Fin 16).val + 1 = ({ runAt 0x200 with sp := 16 } : State).sp.val := by decide

theorem witness_CallOnFullStackFaults : ({ runAt 0x200 with sp := 16 } : State).sp.val = 16 := by decide

theorem witness_ReturnOnEmptyStackFaults : (runAt 0x200).sp.val = 0 := by decide

/-- The lowest and the highest key, named by a byte with a high nibble. -/
theorem witness_KeySkipsFollowKeyState :
    (0 : Fin 16).val = ((with1 4 0x10).getV 4).toNat % 16 ∧ (15 : Fin 16).val = ((with1 4 0xFF).getV 4).toNat % 16 := by decide

theorem witness_CallThenReturnComesBack :
    ∃ s t u : State, s.sp.val < 16 ∧ exec (.call 0x300) s = .next t ∧ u.sp = t.sp ∧ u.stk = t.stk :=
  ⟨{ runAt 0x200 with sp := 15 }, _, _, by decide, rfl, rfl, rfl⟩

/-- The clause for x other than F, and the flag at both values. -/
theorem witness_AddSetsCarry :
    (1 : Reg) ≠ 15 ∧ ((with2 1 0xFF 2 1).getV 1).toNat + ((with2 1 0xFF 2 1).getV 2).toNat > 255 ∧
    ¬ ((with2 1 0xFE 2 1).getV 1).toNat + ((with2 1 0xFE 2 1).getV 2).toNat > 255 := by decide

theorem witness_StoreThenReadRestores :
    ∃ s t u : State, exec (.store 5) s = .next t ∧ u.i = t.i ∧ SameMemory t u :=
  ⟨with1 5 0xA5, _, _, rfl, rfl, fun _ => rfl⟩

/-- A pixel of the sprite at the last row and column, and one outside it. -/
theorem witness_DrawXorsSpritePixels :
    (14 : Nat) < (15 : Fin 16).val ∧ (6 : Fin 64).val = (((with2 0 63 1 31).getV 0).toNat + 7) % 64 ∧
    (13 : Fin 32).val = (((with2 0 63 1 31).getV 1).toNat + 14) % 32 ∧
    (∀ r < 15, ∀ c < 8, (7 : Fin 64).val ≠ (((with2 0 63 1 31).getV 0).toNat + c) % 64 ∨
      (14 : Fin 32).val ≠ (((with2 0 63 1 31).getV 1).toNat + r) % 32) := by decide

/-- A collision (the clause for 1). -/
theorem witness_DrawFlagIsCollision_set :
    ∃ (s t : State) (px : Fin 64) (py : Fin 32), exec (.drw 0 1 1) s = .next t ∧
      px.val = ((s.getV 0).toNat + 7) % 64 ∧ py.val = ((s.getV 1).toNat + 0) % 32 ∧
      (s.memRead (s.dataAddr 0)).getLsbD (7 - 7) = true ∧ s.fb.get px py = true :=
  ⟨{ sprite (with2 0 0 1 0) [0x01] with fb := FrameBuffer.blank.xorPixel 7 0 true }, _, 7, 0, rfl,
    by decide, by decide, by decide, by decide⟩

/-- No collision (the clause for 0): nothing is lit. -/
theorem witness_DrawFlagIsCollision_clear :
    ∃ s t : State, exec (.drw 0 1 1) s = .next t ∧ (∀ (px : Fin 64) (py : Fin 32), s.fb.get px py = false) :=
  ⟨runAt 0x200, _, rfl, fun px py => FrameBuffer.get_blank px py⟩

theorem witness_DrawTwiceRestores :
    ∃ s t u r : State, exec (.drw 0 1 2) s = .next t ∧ u.fb = t.fb ∧ u.i = s.i ∧ SameMemory s u ∧
      u.getV 0 = s.getV 0 ∧ u.getV 1 = s.getV 1 ∧ exec (.drw 0 1 2) u = .next r :=
  ⟨with2 0 62 1 31, _, _, _, rfl, rfl, rfl, fun _ => rfl, rfl, rfl, rfl⟩

/-- The lowest key, and the highest one alone. -/
theorem witness_KeyWaitTakesLeastKey :
    ((keys [0, 9]).key[(0 : Fin 16).val] = true ∧ ∀ j : Fin 16, j < 0 → (keys [0, 9]).key[j.val] = false) ∧
    ((keys [15]).key[(15 : Fin 16).val] = true ∧ ∀ j : Fin 16, j < 15 → (keys [15]).key[j.val] = false) := by decide

theorem witness_KeyWaitSuspends : ∀ j : Fin 16, (runAt 0x200).key[j.val] = false := by decide

/-- An instruction with no register of its own, one with a flag, and one that loads a range. -/
theorem witness_RegisterWritersComplete :
    (∃ t, exec (.jp 0x300) (runAt 0x200) = .next t) ∧
    (∃ t, exec (.addReg 1 2) (runAt 0x200) = .next t ∧ writesFlag (.addReg 1 2) = true ∧ writesReg 2 (.addReg 1 2) = false) ∧
    (∃ t, exec (.read 3) (runAt 0x200) = .next t ∧ writesReg 4 (.read 3) = false ∧ writesFlag (.read 3) = false) :=
  ⟨⟨_, rfl⟩, ⟨_, rfl, by decide, by decide⟩, ⟨_, rfl, by decide, by decide⟩⟩

/-- 1nnn is none of the instructions the clauses name. -/
theorem witness_StateWritersComplete :
    ∃ t, exec (.jp 0x300) (runAt 0x200) = .next t ∧ (Instr.jp 0x300 ≠ .cls) ∧ (∀ x y n, Instr.jp 0x300 ≠ .drw x y n) ∧
      (Instr.jp 0x300 ≠ .ret) ∧ (∀ nnn, Instr.jp 0x300 ≠ .call nnn) ∧ (∀ x, Instr.jp 0x300 ≠ .ldDTVx x) ∧
      (∀ x, Instr.jp 0x300 ≠ .ldSTVx x) ∧ (∀ nnn, Instr.jp 0x300 ≠ .ldI nnn) ∧ (∀ x, Instr.jp 0x300 ≠ .addI x) ∧
      (∀ x, Instr.jp 0x300 ≠ .ldF x) ∧ (∀ x, Instr.jp 0x300 ≠ .bcd x) ∧ (∀ x, Instr.jp 0x300 ≠ .store x) :=
  ⟨_, rfl, by simp⟩

/-- 1nnn again, and a CALL that faults for the clause that has two outcomes. -/
theorem witness_ControlStateWritersComplete :
    (∃ t, exec (.jp 0x300) (runAt 0x200) = .next t ∧ (∀ x kk, Instr.jp 0x300 ≠ .rnd x kk) ∧
      (∀ x, Instr.jp 0x300 ≠ .ldVxK x) ∧ (∀ nnn, Instr.jp 0x300 ≠ .call nnn) ∧ Instr.jp 0x300 ≠ .ret) ∧
    (∃ t, exec (.call 0x300) { runAt 0x200 with sp := 16 } = .next t ∧ t.rs = .faulted ∧
      ∀ x, Instr.call 0x300 ≠ .ldVxK x) :=
  ⟨⟨_, rfl, by simp⟩, ⟨_, rfl, rfl, by simp⟩⟩

theorem witness_OtherInstructionsAdvance :
    setsPc (.store 3) = false ∧ ∃ t, exec (.store 3) (runAt 0xFFE) = .next t := ⟨by decide, ⟨_, rfl⟩⟩

/-- A tick due in each of the five run states. -/
theorem witness_TickCountsDown :
    ∀ r ∈ [RunState.running, .waitKey, .idle, .faulted, .stopped],
      (due .tick { runAt 0x200 with rs := r }).dueMove = .tick ∧ (due .tick { runAt 0x200 with rs := r }).rs = r := by decide

/-- The empty image and the largest one, of 3584 bytes. -/
theorem witness_LoadStoresImage :
    (due (.load []) State.reset).dueMove = .load [] ∧ State.reset.rs = .idle ∧ (List.replicate 3584 (0 : Byte)).length ≤ 3584 :=
  ⟨rfl, rfl, by rw [List.length_replicate]⟩

/-- An image of 3585 bytes, and a load while RUNNING. -/
theorem witness_LoadRejectedHasNoEffect :
    ((due (.load (List.replicate 3585 0)) State.reset).dueMove = .load (List.replicate 3585 0) ∧
      (due (.load (List.replicate 3585 0)) State.reset).rs = .idle ∧ 3584 < (List.replicate 3585 (0 : Byte)).length) ∧
    ((due (.load [1]) (runAt 0x200)).dueMove = .load [1] ∧ (due (.load [1]) (runAt 0x200)).rs ≠ .idle) :=
  ⟨⟨rfl, rfl, by rw [List.length_replicate]; decide⟩, by decide⟩

theorem witness_UnloadClearsAboveGlyphs : (due .unload (runAt 0x200)).dueMove = .unload := rfl

theorem witness_StopAndKeyMoves :
    ((due .stop (runAt 0x200)).dueMove = .stop ∧ (due .stop (runAt 0x200)).rs = .running) ∧
    ((due .stop { runAt 0x200 with rs := .waitKey }).rs = .waitKey) ∧
    ((due .stop State.reset).dueMove = .stop ∧ (due .stop State.reset).rs = .idle) ∧
    ((due (.setKey 15 true) State.reset).dueMove = .setKey 15 true) := by decide

theorem witness_HostResetConstructs : (due .reset (with1 3 5)).dueMove = .reset := rfl

/-- Each of the moves the clauses name. -/
theorem witness_RunStateByHostMoves :
    ∀ e ∈ [Event.reset, .unload, .load [1], .stop, .tick, .setKey 0 true],
      (due e State.reset).dueMove = e ∧ after (step (due e State.reset)) (fun _ => true) = true := by decide

/-- A CPU step in a halted machine, one that ends in a fatal fault, an Fx0A without and with a key, and a plain one. -/
theorem witness_RunStateByCpuStep :
    (State.reset.rs = .idle ∧ ∃ t, step State.reset = .next t) ∧
    (runAt 0x250).fatalNext ∧
    ({ fetching 0x2300 with sp := 16 } : State).fatalNext ∧ (fetching 0x00EE).fatalNext ∧
    (decode (fetching 0xF50A).fetch = .instr (.ldVxK 5) ∧ ∀ k : Fin 16, (fetching 0xF50A).key[k.val] = false) ∧
    (∃ k : Fin 16, (({ fetching 0xF50A with key := (keys [15]).key } : State)).key[k.val] = true) ∧
    (¬ (fetching 0x00E0).fatalNext ∧ ∀ x, decode (fetching 0x00E0).fetch ≠ .instr (.ldVxK x)) := by
  have hc : decode (fetching 0x00E0).fetch = .instr .cls := by decide
  exact ⟨⟨rfl, ⟨_, rfl⟩⟩, .inl ⟨⟨0, by decide⟩, rfl⟩, .inr (.inl ⟨⟨0x300, by decide⟩, rfl⟩), .inr (.inr (by decide)),
    by decide, ⟨15, by decide⟩, (by rintro (⟨⟨w, h⟩, -⟩ | ⟨⟨n, h⟩, -⟩ | ⟨h, -⟩) <;> rw [hc] at h <;> cases h),
    fun x h => by rw [hc] at h; cases h⟩

theorem witness_StepKeepsParameters : ∃ t, step (due .unload (runAt 0x200)) = .next t := ⟨_, rfl⟩

/-- A memory that lists bytes. -/
theorem witness_StepKeepsMemoryCanonical :
    (fetching 0xF155).memCanonical ∧ ∃ t, step (fetching 0xF155) = .next t :=
  ⟨State.writeBytes_memCanonical ⟨List.Pairwise.nil, by simp [runAt, State.reset]⟩ _ _, ⟨_, rfl⟩⟩

/-- Addresses at the top of their range. -/
theorem witness_StepKeepsAddressesMasked :
    ({ runAt 0xFFF with i := 0xFFF, stk := Vector.replicate 16 0xFFF } : State).addressesMasked :=
  ⟨by decide, by decide, by decide⟩

/-- A machine in WAIT_KEY at an Fx0A. -/
theorem witness_StepKeepsWaitAtKeyWait :
    ({ fetching 0xF50A with rs := .waitKey } : State).rs = .waitKey ∧
    ({ fetching 0xF50A with rs := .waitKey } : State).waitsAtKeyWait := ⟨rfl, fun _ => ⟨5, by decide⟩⟩

/-- A machine in FAULTED for each of the three kinds. -/
theorem witness_StepKeepsFaultExplained :
    ({ fetching 0x2300 with sp := 16, rs := .faulted, fault := some ⟨.stackOverflow, 0x2300, 0x200⟩ } : State).faultExplained ∧
    ({ fetching 0x00EE with rs := .faulted, fault := some ⟨.stackUnderflow, 0x00EE, 0x200⟩ } : State).faultExplained ∧
    ({ runAt 0x250 with rs := .faulted, fault := some ⟨.invalidInstruction, 0x0000, 0x250⟩ } : State).faultExplained :=
  ⟨fun _ => ⟨.stackOverflow, by decide, rfl, 0x300, by decide⟩,
   fun _ => ⟨.stackUnderflow, by decide, rfl, by decide⟩,
   fun _ => ⟨.invalidInstruction, by decide, rfl, 0, by decide⟩⟩

theorem witness_SoundTimerAndFaultUnread : ∃ t, step { runAt 0x250 with st := 7 } = .next t := ⟨_, rfl⟩

end Sys2Proof.Tests
end

section
/-! PROOFS. O54: the parameters and the coming moves. No move writes INVALID_POLICY, GLYPH_ROM or the schedule, and a
step is the due move made on the state in which that move is used up (`step_eq`). -/

namespace Sys2Proof.Machine

/-- INVALID_POLICY, GLYPH_ROM and the coming moves are as before. -/
def SameParameters (s t : State) : Prop :=
  t.policy = s.policy ∧ t.glyphRom = s.glyphRom ∧ t.schedule = s.schedule

theorem SameParameters.refl (s : State) : SameParameters s s := ⟨rfl, rfl, rfl⟩

/-! ## The shared operations -/

theorem State.writeBytes_sameParameters (s : State) (a : Nat) (bs : List Byte) : SameParameters s (s.writeBytes a bs) := by
  rw [State.writeBytes_eq]
  exact ⟨rfl, rfl, rfl⟩

theorem State.loadRegs_sameParameters (s : State) (x : Reg) : SameParameters s (s.loadRegs x) := by
  rw [(s.loadRegs_spec x).1]
  exact ⟨rfl, rfl, rfl⟩

theorem State.invalidInstruction_sameParameters (s : State) (w : Word) : SameParameters s (s.invalidInstruction w) := by
  rcases s.invalidInstruction_cases w with ⟨-, h⟩ | ⟨-, h⟩ <;> rw [h] <;> exact ⟨rfl, rfl, rfl⟩

/-! ## The moves of the CPU -/

/-- RET, CALL and Fx0A have two outcomes; BCD, STORE and READ loop over bytes or registers; every other instruction is
a fixed chain of updates, none of them of these fields. -/
theorem exec_sameParameters {i : Instr} {s t : State} (h : exec i s = .next t) : SameParameters s t := by
  cases i with
  | ret => rcases exec_ret_cases h with ⟨-, rfl⟩ | ⟨-, rfl⟩ <;> exact ⟨rfl, rfl, rfl⟩
  | call nnn => rcases exec_call_cases h with ⟨-, rfl⟩ | ⟨-, rfl⟩ <;> exact ⟨rfl, rfl, rfl⟩
  | ldVxK x => rcases exec_ldVxK_cases h with ⟨-, rfl⟩ | ⟨k, -, rfl⟩ <;> exact ⟨rfl, rfl, rfl⟩
  | bcd x => cases h; exact s.writeBytes_sameParameters _ _
  | store x => cases h; exact s.writeBytes_sameParameters _ _
  | read x => cases h; exact s.loadRegs_sameParameters x
  | _ => cases h; exact ⟨rfl, rfl, rfl⟩

theorem State.cpuStep_sameParameters {s t : State} (h : s.cpuStep = .next t) : SameParameters s t := by
  rcases State.cpuStep_cases h with ⟨-, rfl⟩ | ⟨-, rfl⟩ | ⟨-, ⟨i, -, hi⟩ | ⟨r, -, rfl⟩⟩
  · exact ⟨rfl, rfl, rfl⟩
  · exact .refl t
  · exact exec_sameParameters hi
  · exact s.invalidInstruction_sameParameters _

/-! ## The moves of the timer and the host -/

theorem State.tick_sameParameters (s : State) : SameParameters s s.tick := by
  unfold State.tick
  split
  · exact ⟨rfl, rfl, rfl⟩
  · exact .refl s

/-- An accepted image is bytes written to memory; a rejected one leaves at most a report. -/
theorem State.load_sameParameters (s : State) (image : List Byte) : SameParameters s (s.load image) := by
  unfold State.load
  split
  · exact .refl s
  · split
    · exact ⟨rfl, rfl, rfl⟩
    · exact s.writeBytes_sameParameters _ _

theorem State.stop_sameParameters (s : State) : SameParameters s s.stop := by
  unfold State.stop
  split
  · exact ⟨rfl, rfl, rfl⟩
  · exact .refl s

theorem State.move_sameParameters {s t : State} {e : Event} (h : s.move e = .next t) : SameParameters s t := by
  cases e with
  | cpuStep => exact State.cpuStep_sameParameters h
  | tick => cases h; exact s.tick_sameParameters
  | load image => cases h; exact s.load_sameParameters image
  | unload => cases h; exact ⟨rfl, rfl, rfl⟩
  | stop => cases h; exact s.stop_sameParameters
  | setKey k pressed => cases h; exact ⟨rfl, rfl, rfl⟩
  | reset => cases h; exact ⟨rfl, rfl, rfl⟩

/-- Settles O54: the due move acts on `s.afterDue`, whose schedule is the tail, and no move writes these fields. -/
theorem stepKeepsParameters : Obligations.StepKeepsParameters := by
  intro s t h
  rw [step_eq] at h
  exact State.move_sameParameters h

end Sys2Proof.Machine
end

section
/-! PROOFS. O60: noninterference of ST and the fault record. Every move carries the two apart: the new ST is a function
of the old ST alone, the new record one of the old record alone, and no other field of the next state depends on them. -/

namespace Sys2Proof.Machine

/-! ## The instructions with two outcomes, forwards

`exec_ret_cases` and its companions say which outcome an answer was; these say which outcome a state has. -/

theorem exec_ret_of_empty {s : State} (h : s.sp.val = 0) :
    exec .ret s = .next (s.raiseFault .stackUnderflow (encode .ret)) := by
  simp [exec, execRet, State.pop, h]

theorem exec_ret_of_pos {s : State} (h : 0 < s.sp.val) :
    exec .ret s = .next (({ s with sp := ⟨s.sp.val - 1, by omega⟩ } : State).goto (s.stk[s.sp.val - 1] + 2)) := by
  simp [exec, execRet, State.pop, h]

theorem exec_call_of_full (nnn : Word) {s : State} (h : s.sp.val = 16) :
    exec (.call nnn) s = .next (s.raiseFault .stackOverflow (encode (.call nnn))) := by
  simp [exec, execCall, State.push, h]

theorem exec_call_of_room (nnn : Word) {s : State} (h : s.sp.val < 16) :
    exec (.call nnn) s = .next (({ s with
      stk := s.stk.set s.sp.val s.pc, sp := ⟨s.sp.val + 1, by omega⟩ } : State).goto nnn) := by
  simp [exec, execCall, State.push, h]

theorem exec_ldVxK_of_noKey (x : Reg) {s : State} (h : s.lowestKey = none) :
    exec (.ldVxK x) s = .next { s with rs := .waitKey } := by
  simp [exec, execLdVxK, h]

theorem exec_ldVxK_of_key (x : Reg) {s : State} {k : Fin 16} (h : s.lowestKey = some k) :
    exec (.ldVxK x) s = .next (({ s with rs := .running } : State).setV x (byteOf k.val)).advance := by
  simp [exec, execLdVxK, h]

/-! ## A CPU step, forwards -/

theorem State.cpuStep_of_idle {s : State} (h : s.rs = .idle) :
    s.cpuStep = .next { s with reports := s.reports ++ [.noProgramLoaded] } := by
  simp [State.cpuStep, h]

theorem State.cpuStep_of_halted {s : State} (h : s.rs = .faulted ∨ s.rs = .stopped) : s.cpuStep = .next s := by
  rcases h with h | h <;> simp [State.cpuStep, h]

theorem State.cpuStep_of_instr {s : State} {i : Instr} (h : s.rs = .running ∨ s.rs = .waitKey)
    (hd : decode s.fetch = .instr i) : s.cpuStep = exec i s := by
  rcases h with h | h <;> simp [State.cpuStep, h, State.runInstruction, hd]

theorem State.cpuStep_of_reject {s : State} {r : DecodeReject} (h : s.rs = .running ∨ s.rs = .waitKey)
    (hd : decode s.fetch = .reject r) : s.cpuStep = .next (s.invalidInstruction s.fetch) := by
  rcases h with h | h <;> simp [State.cpuStep, h, State.runInstruction, hd]

theorem State.invalidInstruction_of_halt {s : State} (h : s.policy = .halt) (w : Word) :
    s.invalidInstruction w = s.raiseFault .invalidInstruction w := by
  simp [State.invalidInstruction, h]

theorem State.invalidInstruction_of_skip {s : State} (h : s.policy = .skip) (w : Word) :
    s.invalidInstruction w = { s with fault := some ⟨.invalidInstruction, w, s.pc⟩, pc := s.nextPc } := by
  simp [State.invalidInstruction, h]

/-! ## A load, forwards -/

theorem State.load_of_notIdle {s : State} {image : List Byte} (h : s.rs ≠ .idle) : s.load image = s := by
  simp [State.load, h]

theorem State.load_of_tooLarge {s : State} {image : List Byte} (h : s.rs = .idle) (hl : image.length > Config.progMax) :
    s.load image = { s with reports := s.reports ++ [.programTooLarge] } := by
  simp [State.load, h, hl]

theorem State.load_of_fits {s : State} {image : List Byte} (h : s.rs = .idle) (hl : ¬ image.length > Config.progMax) :
    s.load image =
      { s.writeBytes Config.progBase image with pc := BitVec.ofNat 16 Config.progBase, rs := .running } := by
  simp [State.load, h, hl]

/-! ## The relation -/

/-- The state with other values of ST and FAULT. -/
def State.withStFault (s : State) (b : Byte) (f : Option FaultRecord) : State := { s with st := b, fault := f }

theorem State.withStFault_self (s : State) : s.withStFault s.st s.fault = s := rfl

/-- The move, which takes `s` to `t`, takes `s` with any ST and FAULT to `t` with a new ST made from that ST alone and a
new FAULT made from that FAULT alone. -/
def CarriesApart (move : State → Host.Outcome State Fault Refusal) (s t : State) : Prop :=
  ∃ (g : Byte → Byte) (k : Option FaultRecord → Option FaultRecord),
    ∀ b f, move (s.withStFault b f) = .next (t.withStFault (g b) (k f))

/-- A move that reads and writes neither. -/
theorem CarriesApart.of_keeps {move : State → Host.Outcome State Fault Refusal} {s t : State}
    (h : ∀ b f, move (s.withStFault b f) = .next (t.withStFault b f)) : CarriesApart move s t := ⟨id, id, h⟩

/-- A move that reads neither and writes FAULT. -/
theorem CarriesApart.of_raises {move : State → Host.Outcome State Fault Refusal} {s t : State} (r : FaultRecord)
    (h : ∀ b f, move (s.withStFault b f) = .next (t.withStFault b (some r))) : CarriesApart move s t :=
  ⟨id, fun _ => some r, h⟩

/-! ## The shared operations -/

theorem State.writeBytes_withStFault (s : State) (a : Nat) (bs : List Byte) (b : Byte) (f : Option FaultRecord) :
    (s.withStFault b f).writeBytes a bs = (s.writeBytes a bs).withStFault b f := by
  induction bs generalizing s a with
  | nil => rfl
  | cons c bs ih => exact ih (s.memWrite a c) (a + 1)

theorem State.storeRegs_withStFault (s : State) (x : Reg) (b : Byte) (f : Option FaultRecord) :
    (s.withStFault b f).storeRegs x = (s.storeRegs x).withStFault b f :=
  s.writeBytes_withStFault _ _ b f

theorem State.loadRegs_withStFault (s : State) (x : Reg) (b : Byte) (f : Option FaultRecord) :
    (s.withStFault b f).loadRegs x = (s.loadRegs x).withStFault b f :=
  List.foldl_hom (State.withStFault · b f) (g₁ := fun t k => t.setV k (s.memRead (s.dataAddr k.val)))
    (fun _ _ => rfl)

theorem State.invalidInstruction_carriesApart (s : State) (w : Word) :
    CarriesApart (fun s => .next (s.invalidInstruction w)) s (s.invalidInstruction w) := by
  refine .of_raises ⟨.invalidInstruction, w, s.pc⟩ fun b f => ?_
  rcases s.invalidInstruction_cases w with ⟨hp, h⟩ | ⟨hp, h⟩ <;> rw [h]
  · exact congrArg _ (State.invalidInstruction_of_halt (s := s.withStFault b f) hp w)
  · exact congrArg _ (State.invalidInstruction_of_skip (s := s.withStFault b f) hp w)

/-! ## The moves of the CPU -/

/-- RET, CALL and Fx0A choose between two outcomes by SP and KEY; STORE and READ loop over registers; Fx18 writes ST;
every other instruction is a fixed chain of updates that neither reads nor writes the two. -/
theorem exec_carriesApart {i : Instr} {s t : State} (h : exec i s = .next t) : CarriesApart (exec i) s t := by
  cases i with
  | ret =>
    rcases exec_ret_cases h with ⟨h0, rfl⟩ | ⟨hp, rfl⟩
    · exact .of_raises ⟨.stackUnderflow, encode .ret, s.pc⟩ fun b f => exec_ret_of_empty (s := s.withStFault b f) h0
    · exact .of_keeps fun b f => exec_ret_of_pos (s := s.withStFault b f) hp
  | call nnn =>
    rcases exec_call_cases h with ⟨h16, rfl⟩ | ⟨hlt, rfl⟩
    · exact .of_raises ⟨.stackOverflow, encode (.call nnn), s.pc⟩ fun b f =>
        exec_call_of_full nnn (s := s.withStFault b f) h16
    · exact .of_keeps fun b f => exec_call_of_room nnn (s := s.withStFault b f) hlt
  | ldVxK x =>
    rcases exec_ldVxK_cases h with ⟨hk, rfl⟩ | ⟨k, hk, rfl⟩
    · exact .of_keeps fun b f => exec_ldVxK_of_noKey x (s := s.withStFault b f) hk
    · exact .of_keeps fun b f => exec_ldVxK_of_key x (s := s.withStFault b f) hk
  | store x =>
    cases h
    exact .of_keeps fun b f => congrArg (fun t : State => Host.Outcome.next t.advance) (s.storeRegs_withStFault x b f)
  | read x =>
    cases h
    exact .of_keeps fun b f => congrArg (fun t : State => Host.Outcome.next t.advance) (s.loadRegs_withStFault x b f)
  | ldSTVx x => cases h; exact ⟨fun _ => s.getV x, id, fun _ _ => rfl⟩
  | _ => cases h; exact .of_keeps fun _ _ => rfl

/-- Whether and what a CPU step executes depends on RS and the fetched word, which hold neither. -/
theorem State.cpuStep_carriesApart {s t : State} (h : s.cpuStep = .next t) : CarriesApart State.cpuStep s t := by
  rcases State.cpuStep_cases h with ⟨hr, rfl⟩ | ⟨hr, rfl⟩ | ⟨hr, ⟨i, hd, hi⟩ | ⟨r, hd, rfl⟩⟩
  · exact .of_keeps fun b f => State.cpuStep_of_idle (s := s.withStFault b f) hr
  · exact .of_keeps fun b f => State.cpuStep_of_halted (s := t.withStFault b f) hr
  · obtain ⟨g, k, hgk⟩ := exec_carriesApart hi
    exact ⟨g, k, fun b f => (State.cpuStep_of_instr (s := s.withStFault b f) hr hd).trans (hgk b f)⟩
  · obtain ⟨g, k, hgk⟩ := s.invalidInstruction_carriesApart s.fetch
    exact ⟨g, k, fun b f => (State.cpuStep_of_reject (s := s.withStFault b f) hr hd).trans (hgk b f)⟩

/-! ## The moves of the timer and the host -/

/-- The one move that reads ST, for ST itself (R212). -/
theorem State.tick_carriesApart (s : State) : CarriesApart (fun s => .next s.tick) s s.tick := by
  by_cases ha : s.rs.active = true
  · exact ⟨countDown, id, fun b f => by simp [State.tick, State.withStFault, ha]⟩
  · exact .of_keeps fun b f => by simp [State.tick, State.withStFault, ha]

theorem State.load_carriesApart (s : State) (image : List Byte) :
    CarriesApart (fun s => .next (s.load image)) s (s.load image) := by
  refine .of_keeps fun b f => congrArg Host.Outcome.next ?_
  by_cases hr : s.rs = .idle
  · by_cases hl : image.length > Config.progMax
    · rw [State.load_of_tooLarge hr hl, State.load_of_tooLarge (s := s.withStFault b f) hr hl]
      rfl
    · rw [State.load_of_fits hr hl, State.load_of_fits (s := s.withStFault b f) hr hl, State.writeBytes_withStFault]
      rfl
  · rw [State.load_of_notIdle hr, State.load_of_notIdle (s := s.withStFault b f) hr]

theorem State.stop_carriesApart (s : State) : CarriesApart (fun s => .next s.stop) s s.stop := by
  refine .of_keeps fun b f => ?_
  by_cases ha : s.rs.active = true <;> simp [State.stop, State.withStFault, ha]

theorem State.move_carriesApart {s t : State} {e : Event} (h : s.move e = .next t) :
    CarriesApart (fun s => s.move e) s t := by
  cases e with
  | cpuStep => exact State.cpuStep_carriesApart h
  | tick => cases h; exact s.tick_carriesApart
  | load image => cases h; exact s.load_carriesApart image
  | unload => cases h; exact .of_keeps fun _ _ => rfl
  | stop => cases h; exact s.stop_carriesApart
  | setKey k pressed => cases h; exact .of_keeps fun _ _ => rfl
  | reset => cases h; exact ⟨fun _ => 0, fun _ => none, fun _ _ => rfl⟩

/-- The due move and the state it acts on do not depend on the two. -/
theorem step_carriesApart {s t : State} (h : step s = .next t) : CarriesApart step s t := by
  rw [step_eq] at h
  obtain ⟨g, k, hgk⟩ := State.move_carriesApart h
  exact ⟨g, k, fun b f => (step_eq _).trans (hgk b f)⟩

/-- Settles O60: the new values that `step_carriesApart` gives for the old ST and the old FAULT are those of `t`. -/
theorem soundTimerAndFaultUnread : Obligations.SoundTimerAndFaultUnread := by
  intro s t b f h
  obtain ⟨g, k, hgk⟩ := step_carriesApart h
  have ht : t = t.withStFault (g s.st) (k s.fault) := by
    have := h.symm.trans (hgk s.st s.fault)
    injection this
  have hst : g s.st = t.st := (congrArg State.st ht).symm
  have hfault : k s.fault = t.fault := (congrArg State.fault ht).symm
  refine ⟨g b, k f, hgk b f, ?_, ?_⟩
  · simpa [State.withStFault, hfault] using hgk b s.fault
  · simpa [State.withStFault, hst] using hgk s.st f

end Sys2Proof.Machine
end

section
/-! PROOFS. O41: the registers. VF as a flag and the instruction's own destinations are all that `exec` writes. -/

namespace Sys2Proof.Machine

theorem flagByte_eq_zero_or_one (c : Bool) : flagByte c = 0 ∨ flagByte c = 1 := by
  cases c
  · exact .inl rfl
  · exact .inr rfl

theorem State.writeBytes_getV (s : State) (a : Nat) (bs : List Byte) (r : Reg) :
    (s.writeBytes a bs).getV r = s.getV r := by
  rw [State.writeBytes_eq]; rfl

/-- The instructions with one destination write x, those with a flag x and then VF, READ a range; the rest none. -/
theorem exec_getV_of_not_written {i : Instr} {s t : State} (h : exec i s = .next t) {r : Reg}
    (hr : writesReg r i = false) (hf : ¬ (r = 15 ∧ writesFlag i = true)) : t.getV r = s.getV r := by
  cases i with
  | ret => rcases exec_ret_cases h with ⟨-, rfl⟩ | ⟨-, rfl⟩ <;> rfl
  | call nnn => rcases exec_call_cases h with ⟨-, rfl⟩ | ⟨-, rfl⟩ <;> rfl
  | ldVxK x =>
    have hx : r ≠ x := by simpa [writesReg] using hr
    rcases exec_ldVxK_cases h with ⟨-, rfl⟩ | ⟨k, -, rfl⟩
    · rfl
    · exact (State.getV_setV _ x r _).trans (if_neg hx)
  | bcd x => cases h; exact s.writeBytes_getV _ _ r
  | store x => cases h; exact s.writeBytes_getV _ _ r
  | read x =>
    have hx : ¬ r ≤ x := by simpa [writesReg] using hr
    cases h; exact ((s.loadRegs_spec x).2 r).trans (if_neg hx)
  | ldImm x _ | addImm x _ | rnd x _ | ldReg x _ | orReg x _ | andReg x _ | xorReg x _ | ldVxDT x =>
    have hx : r ≠ x := by simpa [writesReg] using hr
    cases h; exact (State.getV_setV _ x r _).trans (if_neg hx)
  | addReg x _ | subReg x _ | shr x _ | subnReg x _ | shl x _ =>
    have hx : r ≠ x := by simpa [writesReg] using hr
    have h15 : r ≠ Reg.flag := by simpa [writesFlag] using hf
    cases h; exact (State.getV_setWithFlag s x r _ _).trans ((if_neg h15).trans (if_neg hx))
  | drw x y n =>
    have h15 : r ≠ Reg.flag := by simpa [writesFlag] using hf
    cases h; exact (State.getV_setV _ Reg.flag r _).trans (if_neg h15)
  | _ => cases h; rfl

/-- Each of the six writes VF last, with a `flagByte`. -/
theorem exec_flag {i : Instr} {s t : State} (h : exec i s = .next t) (hf : writesFlag i = true) :
    ∃ c, t.getV Reg.flag = flagByte c := by
  cases i with
  | addReg x _ | subReg x _ | shr x _ | subnReg x _ | shl x _ =>
    cases h; exact ⟨_, (State.getV_setWithFlag s x Reg.flag _ _).trans (if_pos rfl)⟩
  | drw x y n => cases h; exact ⟨_, (State.getV_setV _ Reg.flag Reg.flag _).trans (if_pos rfl)⟩
  | _ => simp [writesFlag] at hf

/-- Settles O41: what is not written is kept, and a flag is 0 or 1. -/
theorem registerWritersComplete : Obligations.RegisterWritersComplete := by
  intro i s t h
  refine ⟨fun r hr hf => exec_getV_of_not_written h hr hf, fun hf => ?_⟩
  obtain ⟨c, hc⟩ := exec_flag h hf
  exact hc ▸ flagByte_eq_zero_or_one c

end Sys2Proof.Machine
end

section
/-! PROOFS. O42 and O43: every other piece of state. One table says which instructions write which piece, `exec_frame`
that `exec` keeps to it, and both obligations read their clauses off the frame. -/

namespace Sys2Proof.Machine

/-- The pieces of state that some instruction writes, the registers and the pc left out. -/
inductive Piece where
  | fb | sp | stk | dt | st | i | mem | draws
  /-- RS and FAULT together -/
  | control

/-- The instructions that may write the piece. -/
def mayWrite : Piece → Instr → Bool
  | .fb, .cls | .fb, .drw _ _ _ => true
  | .sp, .call _ | .sp, .ret => true
  | .stk, .call _ => true
  | .dt, .ldDTVx _ => true
  | .st, .ldSTVx _ => true
  | .i, .ldI _ | .i, .addI _ | .i, .ldF _ => true
  | .mem, .bcd _ | .mem, .store _ => true
  | .draws, .rnd _ _ => true
  | .control, .call _ | .control, .ret | .control, .ldVxK _ => true
  | _, _ => false

/-- Outside the registers and the pc, the next state is the old one but for the pieces the instruction may write. -/
theorem exec_frame {i : Instr} {s t : State} (h : exec i s = .next t) :
    t = { s with
      v := t.v
      pc := t.pc
      fb := if mayWrite .fb i then t.fb else s.fb
      sp := if mayWrite .sp i then t.sp else s.sp
      stk := if mayWrite .stk i then t.stk else s.stk
      dt := if mayWrite .dt i then t.dt else s.dt
      st := if mayWrite .st i then t.st else s.st
      i := if mayWrite .i i then t.i else s.i
      mem := if mayWrite .mem i then t.mem else s.mem
      draws := if mayWrite .draws i then t.draws else s.draws
      rs := if mayWrite .control i then t.rs else s.rs
      fault := if mayWrite .control i then t.fault else s.fault } := by
  cases i with
  | ret => rcases exec_ret_cases h with ⟨-, rfl⟩ | ⟨-, rfl⟩ <;> rfl
  | call nnn => rcases exec_call_cases h with ⟨-, rfl⟩ | ⟨-, rfl⟩ <;> rfl
  | ldVxK x => rcases exec_ldVxK_cases h with ⟨-, rfl⟩ | ⟨k, -, rfl⟩ <;> rfl
  | bcd x => cases h; exact congrArg State.advance (s.writeBytes_eq _ _)
  | store x =>
    obtain ⟨m, hm⟩ : ∃ m, s.storeRegs x = { s with mem := m } := ⟨_, s.storeRegs_eq x⟩
    cases h; rw [hm]; rfl
  | read x =>
    obtain ⟨v, hv⟩ : ∃ v, s.loadRegs x = { s with v := v } := ⟨_, (s.loadRegs_spec x).1⟩
    cases h; rw [hv]; rfl
  | _ => cases h; rfl

/-- RS and FAULT are kept by every instruction that may not write them. -/
theorem exec_control {i : Instr} {s t : State} (h : exec i s = .next t) (hw : ¬ mayWrite .control i) :
    t.rs = s.rs ∧ t.fault = s.fault :=
  ⟨(congrArg State.rs (exec_frame h)).trans (if_neg hw), (congrArg State.fault (exec_frame h)).trans (if_neg hw)⟩

/-- Settles O42: each clause is the frame's field, for an instruction that may not write it. -/
theorem stateWritersComplete : Obligations.StateWritersComplete := by
  intro i s t h
  have hf := exec_frame h
  refine ⟨fun hcls hdrw => ?_, fun hret hcall => ?_, fun hcall => ?_, fun hdt => ?_, fun hst => ?_,
    fun hldI haddI hldF => ?_, fun hbcd hstore => ?_, (congrArg State.key hf :)⟩
  · cases i with
    | cls => exact absurd rfl hcls
    | drw x y n => exact absurd rfl (hdrw x y n)
    | _ => exact (congrArg State.fb hf :)
  · cases i with
    | ret => exact absurd rfl hret
    | call nnn => exact absurd rfl (hcall nnn)
    | _ => exact (congrArg State.sp hf :)
  · cases i with
    | call nnn => exact absurd rfl (hcall nnn)
    | _ => exact (congrArg State.stk hf :)
  · cases i with
    | ldDTVx x => exact absurd rfl (hdt x)
    | _ => exact (congrArg State.dt hf :)
  · cases i with
    | ldSTVx x => exact absurd rfl (hst x)
    | _ => exact (congrArg State.st hf :)
  · cases i with
    | ldI nnn => exact absurd rfl (hldI nnn)
    | addI x => exact absurd rfl (haddI x)
    | ldF x => exact absurd rfl (hldF x)
    | _ => exact (congrArg State.i hf :)
  · cases i with
    | bcd x => exact absurd rfl (hbcd x)
    | store x => exact absurd rfl (hstore x)
    | _ => exact State.sameMemory_of_fields ((congrArg State.glyphRom hf :)) (congrArg State.mem hf :)

/-- Settles O43: CALL and RET either move the stack or raise their fault; all else is in the frame. -/
theorem controlStateWritersComplete : Obligations.ControlStateWritersComplete := by
  intro i s t h
  obtain ⟨hpolicy, hrom, hschedule⟩ := exec_sameParameters h
  have hf := exec_frame h
  refine ⟨hpolicy, hrom, hschedule, (congrArg State.reports hf :), fun hrnd => ?_, fun hkey => ?_,
    fun hkey hcall hret => ?_⟩
  · cases i with
    | rnd x kk => exact absurd rfl (hrnd x kk)
    | _ => exact (congrArg State.draws hf :)
  · cases i with
    | ldVxK x => exact absurd rfl (hkey x)
    | ret =>
      rcases exec_ret_cases h with ⟨-, rfl⟩ | ⟨-, rfl⟩
      · exact .inr ⟨rfl, Option.some_ne_none _⟩
      · exact .inl ⟨rfl, rfl⟩
    | call nnn =>
      rcases exec_call_cases h with ⟨-, rfl⟩ | ⟨-, rfl⟩
      · exact .inr ⟨rfl, Option.some_ne_none _⟩
      · exact .inl ⟨rfl, rfl⟩
    | _ => exact .inl (exec_control h Bool.false_ne_true)
  · cases i with
    | ldVxK x => exact absurd rfl (hkey x)
    | ret => exact absurd rfl hret
    | call nnn => exact absurd rfl (hcall nnn)
    | _ => exact exec_control h Bool.false_ne_true

end Sys2Proof.Machine
end

section
/-! PROOFS. O53: the snapshot is the library's `Vector.flatten` of the 32 rows of 64. -/

namespace Sys2Proof.Machine

theorem State.snapshot_eq_flatten (s : State) : s.snapshot = s.fb.flatten.toList := by
  have h : s.fb.flatten.toList = (s.fb.toArray.map Vector.toArray).flatten.toList := rfl
  rw [h, Array.toList_flatten, Array.toList_map, List.map_map]
  rfl

/-- Settles O53: entry `k` of a flattened vector of rows is row `k / 64`, column `k % 64`. -/
theorem snapshotIsRowMajor : Obligations.SnapshotIsRowMajor := by
  intro s
  rw [State.snapshot_eq_flatten]
  refine ⟨by simp, fun px py => ?_⟩
  have hrow : (py.val * 64 + px.val) / 64 = py.val := by omega
  have hcol : (py.val * 64 + px.val) % 64 = px.val := by omega
  rw [Vector.getElem?_toList, Vector.getElem?_flatten, dif_pos (by omega)]
  simp only [hrow, hcol]
  rfl

end Sys2Proof.Machine
end

section
/-! PROOFS. O8 and O33: the machine's accesses to memory. Masking is `State.memRead_mod`, a read after a write
`State.memRead_memWrite`; what is added is the fetched word as a number and the frame of a write. -/

namespace Sys2Proof.Machine

/-- The byte at the pc is the high one (R55). -/
theorem State.fetch_toNat (s : State) :
    s.fetch.toNat = 256 * (s.memRead s.pc.toNat).toNat + (s.memRead (s.pc.toNat + 1)).toNat :=
  wordOfBytes_toNat _ _

/-- `memWrite` writes memory and nothing else. -/
theorem State.memWrite_eq (s : State) (a : Nat) (v : Byte) : s.memWrite a v = { s with mem := (s.memWrite a v).mem } := rfl

/-- Settles O8: each of the two reads masks its own address, so the second byte wraps at 0xFFF. -/
theorem fetchIsBigEndian : Obligations.FetchIsBigEndian := by
  intro s
  have hhi : s.memRead (s.pc.toNat % 4096) = s.memRead s.pc.toNat := s.memRead_mod _
  have hlo : s.memRead ((s.pc.toNat + 1) % 4096) = s.memRead (s.pc.toNat + 1) := s.memRead_mod _
  rw [hhi, hlo, s.fetch_toNat]

/-- Settles O33: the three clauses are the read after a write, the masked read and the frame. -/
theorem memWriteChangesOneByte : Obligations.MemWriteChangesOneByte :=
  fun s a b v => ⟨s.memRead_memWrite a b v, (s.memRead_mod b).symm, s.memWrite_eq a v⟩

end Sys2Proof.Machine
end

section
/-! PROOFS. O2, O6 and O1: the operand fields of a word, and of the word that an instruction encodes to. -/

namespace Sys2Proof

/-! ## The fields as slices (R71) -/

theorem fieldKK_eq_nibbles (w : Word) : (fieldKK w).toNat = 16 * (fieldY w).val + (fieldN w).val := by
  rw [fieldKK_toNat, fieldY_val, fieldN_val]
  omega

theorem fieldNNN_eq_nibbles (w : Word) :
    (fieldNNN w).toNat = 256 * (fieldX w).val + 16 * (fieldY w).val + (fieldN w).val := by
  rw [fieldNNN_toNat, fieldX_val, fieldY_val, fieldN_val]
  omega

theorem fieldOp_wordOfBytes (hi lo : Byte) : fieldOp (wordOfBytes hi lo) = hi.toNat / 16 := by
  rw [fieldOp_eq, wordOfBytes_toNat]
  omega

theorem fieldX_wordOfBytes (hi lo : Byte) : (fieldX (wordOfBytes hi lo)).val = hi.toNat % 16 := by
  rw [fieldX_val, wordOfBytes_toNat]
  omega

theorem fieldKK_wordOfBytes (hi lo : Byte) : fieldKK (wordOfBytes hi lo) = lo := by
  apply BitVec.eq_of_toNat_eq
  rw [fieldKK_toNat, wordOfBytes_toNat]
  omega

/-- Settles O2: each slice is a quotient and a remainder of the word's number. -/
theorem operandFieldsAreSlices : Obligations.OperandFieldsAreSlices :=
  ⟨fun w => ⟨fieldOp_eq w, fieldX_val w, fieldY_val w, fieldN_val w, fieldKK_toNat w, fieldNNN_toNat w,
      fieldKK_eq_nibbles w, fieldNNN_eq_nibbles w⟩,
    fun hi lo => ⟨fieldOp_wordOfBytes hi lo, fieldX_wordOfBytes hi lo, fieldKK_wordOfBytes hi lo⟩⟩

/-- Settles O6: the decoder evaluates on eighteen literal words. -/
theorem sampleWordsDecode : Obligations.SampleWordsDecode := by
  unfold Obligations.SampleWordsDecode
  decide

/-! ## The fields of an encoded word

Each format puts its operands in bits that its row's match leaves 0, so they are read back as they were. -/

theorem fitsAddressField_iff (nnn : Word) : fitsAddressField nnn = true ↔ nnn.toNat < 4096 := by
  simp [fitsAddressField]

section
variable {m : Word}

theorem fieldNNN_encodeA {nnn : Word} (hm : m.toNat % 4096 = 0) (hn : fitsAddressField nnn = true) :
    fieldNNN (encodeA m nnn) = nnn := by
  rw [fitsAddressField_iff] at hn
  apply BitVec.eq_of_toNat_eq
  rw [fieldNNN_toNat, encodeA_toNat (m.toNat / 4096) m nnn (by omega)]
  omega

theorem fieldX_encodeXK (x : Reg) (kk : Byte) (hm : m.toNat % 4096 = 0) : fieldX (encodeXK m x kk) = x := by
  ext
  rw [fieldX_val, encodeXK_toNat (m.toNat / 4096) m x kk (by omega)]
  omega

theorem fieldKK_encodeXK (x : Reg) (kk : Byte) (hm : m.toNat % 4096 = 0) : fieldKK (encodeXK m x kk) = kk := by
  apply BitVec.eq_of_toNat_eq
  rw [fieldKK_toNat, encodeXK_toNat (m.toNat / 4096) m x kk (by omega)]
  omega

theorem fieldX_encodeXYN (x y : Reg) (n : Fin 16) (hm : m.toNat % 4096 = 0) : fieldX (encodeXYN m x y n) = x := by
  ext
  rw [fieldX_val, encodeXYN_toNat (m.toNat / 4096) m x y n (by omega)]
  omega

theorem fieldY_encodeXYN (x y : Reg) (n : Fin 16) (hm : m.toNat % 4096 = 0) : fieldY (encodeXYN m x y n) = y := by
  ext
  rw [fieldY_val, encodeXYN_toNat (m.toNat / 4096) m x y n (by omega)]
  omega

theorem fieldN_encodeXYN (x y : Reg) (n : Fin 16) (hm : m.toNat % 4096 = 0) : fieldN (encodeXYN m x y n) = n := by
  ext
  rw [fieldN_val, encodeXYN_toNat (m.toNat / 4096) m x y n (by omega)]
  omega

theorem fieldX_encodeXY (x y : Reg) (hm : m.toNat % 4096 < 16) : fieldX (encodeXY m x y) = x := by
  ext
  rw [fieldX_val, encodeXY_toNat (m.toNat / 4096) (m.toNat % 4096) m x y hm (by omega)]
  omega

theorem fieldY_encodeXY (x y : Reg) (hm : m.toNat % 4096 < 16) : fieldY (encodeXY m x y) = y := by
  ext
  rw [fieldY_val, encodeXY_toNat (m.toNat / 4096) (m.toNat % 4096) m x y hm (by omega)]
  omega

/-- The low nibble of a format XY word is the sub-opcode of its row. -/
theorem fieldN_encodeXY (x y : Reg) (hm : m.toNat % 4096 < 16) : fieldN (encodeXY m x y) = fieldN m := by
  ext
  rw [fieldN_val, fieldN_val, encodeXY_toNat (m.toNat / 4096) (m.toNat % 4096) m x y hm (by omega)]
  omega

theorem fieldX_encodeX (x : Reg) (hm : m.toNat % 4096 < 256) : fieldX (encodeX m x) = x := by
  ext
  rw [fieldX_val, encodeX_toNat (m.toNat / 4096) (m.toNat % 4096) m x hm (by omega)]
  omega

/-- The low byte of a format X word is the sub-opcode of its row. -/
theorem fieldKK_encodeX (x : Reg) (hm : m.toNat % 4096 < 256) : fieldKK (encodeX m x) = fieldKK m := by
  apply BitVec.eq_of_toNat_eq
  rw [fieldKK_toNat, fieldKK_toNat, encodeX_toNat (m.toNat / 4096) (m.toNat % 4096) m x hm (by omega)]
  omega

end

open Laws.EncodeFamily in
/-- The high nibble of an encoded instruction selects its family. -/
theorem fieldOp_encode (i : Instr) : fieldOp (encode i) = family i := by
  cases i
  exacts [cls, ret, jp _, call _, seImm _ _, sneImm _ _, seReg _ _, sneReg _ _, ldImm _ _, addImm _ _, ldReg _ _,
    orReg _ _, andReg _ _, xorReg _ _, addReg _ _, subReg _ _, shr _ _, subnReg _ _, shl _ _, ldI _, jpV0 _, rnd _ _,
    drw _ _ _, skp _, sknp _, ldVxDT _, ldDTVx _, ldSTVx _, ldVxK _, addI _, ldF _, bcd _, store _, read _]

/-- Settles O1: the family selects the decoder's arm, and the fields that the arm reads are those of the instruction's
format (R72). -/
theorem decodeInvertsEncode : Obligations.DecodeInvertsEncode := by
  intro i hi
  have hop := fieldOp_encode i
  cases i with
  | cls | ret => decide
  | jp nnn | call nnn | ldI nnn | jpV0 nnn =>
    have hn : fitsAddressField nnn = true := hi
    simp only [decode, hop, Laws.EncodeFamily.family]
    simp [encode, fieldNNN_encodeA, hn]
  | seImm x kk | sneImm x kk | ldImm x kk | addImm x kk | rnd x kk =>
    simp only [decode, hop, Laws.EncodeFamily.family]
    simp (disch := decide) only [encode, fieldX_encodeXK, fieldKK_encodeXK]
  | drw x y n =>
    simp only [decode, hop, Laws.EncodeFamily.family]
    simp (disch := decide) only [encode, fieldX_encodeXYN, fieldY_encodeXYN, fieldN_encodeXYN]
  | seReg x y | sneReg x y =>
    simp only [decode, hop, Laws.EncodeFamily.family]
    simp (disch := decide) only [encode, fieldX_encodeXY, fieldY_encodeXY, fieldN_encodeXY]
    rfl
  | ldReg x y | orReg x y | andReg x y | xorReg x y | addReg x y | subReg x y | shr x y | subnReg x y | shl x y =>
    simp only [decode, hop, Laws.EncodeFamily.family, decodeAlu]
    simp (disch := decide) only [encode, fieldX_encodeXY, fieldY_encodeXY, fieldN_encodeXY]
    rfl
  | skp x | sknp x =>
    simp only [decode, hop, Laws.EncodeFamily.family, decodeKey]
    simp (disch := decide) only [encode, fieldX_encodeX, fieldKK_encodeX]
    rfl
  | ldVxDT x | ldDTVx x | ldSTVx x | ldVxK x | addI x | ldF x | bcd x | store x | read x =>
    simp only [decode, hop, Laws.EncodeFamily.family, decodeMisc]
    simp (disch := decide) only [encode, fieldX_encodeX, fieldKK_encodeX]
    rfl

end Sys2Proof
end

section
/-! PROOFS. O4: the opcode table. Every mask covers the high nibble, so a word can only meet rows of its own family, and
the decoder's arm for that family is a lookup among a few rows. -/

namespace Sys2Proof

/-- What the first row that holds gives, and Unknown when none does: the right-hand side of O4. -/
def lookupRow (rows : List OpcodeRow) (w : Word) : Decoded :=
  match rows.find? (fun r => r.holds w) with
  | some r => .instr (r.operands w)
  | none => .reject (.unknown w)

/-- The rows whose high digit is `op`. -/
def familyRows (op : Nat) : List OpcodeRow := opcodeTable.filter fun r => decide (r.pat.toNat / 4096 = op)

theorem OpcodeRow.holds_iff (r : OpcodeRow) (w : Word) : r.holds w = true ↔ w &&& r.mask = r.pat := by
  rw [OpcodeRow.holds_eq, decide_eq_true_iff, BitVec.toNat_inj]

/-! ## A row at a time -/

@[simp] theorem lookupRow_nil (w : Word) : lookupRow [] w = .reject (.unknown w) := rfl

theorem lookupRow_cons (r : OpcodeRow) (rows : List OpcodeRow) (w : Word) :
    lookupRow (r :: rows) w =
      if (w &&& r.mask).toNat = r.pat.toNat then .instr (r.operands w) else lookupRow rows w := by
  by_cases h : (w &&& r.mask).toNat = r.pat.toNat
  · simp only [lookupRow, List.find?_cons, r.holds_eq, decide_eq_true h, if_pos h]
  · simp only [lookupRow, List.find?_cons, r.holds_eq, decide_eq_false h, if_neg h]

section
variable (p : String) (m : Word) (f : Word → Instr) (rows : List OpcodeRow) (w : Word)

theorem lookupRow_cons_F000 : lookupRow (⟨p, 0xF000, m, f⟩ :: rows) w =
    if 4096 * (w.toNat / 4096) = m.toNat then .instr (f w) else lookupRow rows w := by
  rw [← and_F000_toNat]
  exact lookupRow_cons _ rows w

theorem lookupRow_cons_F00F : lookupRow (⟨p, 0xF00F, m, f⟩ :: rows) w =
    if w.toNat % 16 + 4096 * (w.toNat / 4096) = m.toNat then .instr (f w) else lookupRow rows w := by
  rw [Nat.add_comm, ← and_F00F_toNat]
  exact lookupRow_cons _ rows w

theorem lookupRow_cons_F0FF : lookupRow (⟨p, 0xF0FF, m, f⟩ :: rows) w =
    if w.toNat % 256 + 4096 * (w.toNat / 4096) = m.toNat then .instr (f w) else lookupRow rows w := by
  rw [Nat.add_comm, ← and_F0FF_toNat]
  exact lookupRow_cons _ rows w

theorem lookupRow_cons_FFFF : lookupRow (⟨p, 0xFFFF, m, f⟩ :: rows) w =
    if w = m then .instr (f w) else lookupRow rows w := by
  simp only [← BitVec.toNat_inj]
  rw [← and_FFFF_toNat w]
  exact lookupRow_cons _ rows w

end

/-! ## A family at a time -/

theorem opcodeTable_mask_covers_family : ∀ r ∈ opcodeTable, r.mask &&& 0xF000#16 = 0xF000#16 := by decide

theorem OpcodeRow.family_of_holds {r : OpcodeRow} {w : Word} (hr : r ∈ opcodeTable) (h : r.holds w = true) :
    r.pat.toNat / 4096 = fieldOp w := by
  have hhigh : r.pat &&& 0xF000#16 = w &&& 0xF000#16 := by
    rw [← (r.holds_iff w).1 h, BitVec.and_assoc, opcodeTable_mask_covers_family r hr]
  have hnum := congrArg BitVec.toNat hhigh
  rw [and_F000_toNat, and_F000_toNat] at hnum
  rw [fieldOp_eq]
  omega

theorem lookupRow_opcodeTable {w : Word} {op : Nat} (hop : fieldOp w = op) :
    lookupRow opcodeTable w = lookupRow (familyRows op) w := by
  have hfind : opcodeTable.find? (fun r => r.holds w) = (familyRows op).find? (fun r => r.holds w) := by
    rw [familyRows, List.find?_filter]
    refine List.find?_congr fun r hr => ?_
    cases h : r.holds w with
    | false => simp
    | true => simp [OpcodeRow.family_of_holds hr h, hop]
  rw [lookupRow, hfind, lookupRow]

/-- A family with one row and no sub-opcode. -/
theorem lookupRow_of_single {w m : Word} {op : Nat} {p : String} {f : Word → Instr} (hop : fieldOp w = op)
    (hrows : familyRows op = [⟨p, 0xF000, m, f⟩]) (hm : m.toNat = 4096 * op) :
    .instr (f w) = lookupRow opcodeTable w := by
  rw [lookupRow_opcodeTable hop]
  rw [fieldOp_eq] at hop
  rw [hrows, lookupRow_cons_F000, hm, hop, if_pos rfl]

/-- A family with one row and sub-opcode 0. -/
theorem lookupRow_of_single_sub {w m : Word} {op : Nat} {p : String} {f : Word → Instr} (hop : fieldOp w = op)
    (hrows : familyRows op = [⟨p, 0xF00F, m, f⟩]) (hm : m.toNat = 4096 * op) :
    (if (fieldN w).val = 0 then .instr (f w) else .reject (.unknown w)) = lookupRow opcodeTable w := by
  rw [lookupRow_opcodeTable hop]
  rw [fieldOp_eq] at hop
  simp only [hrows, lookupRow_cons_F00F, hm, hop, fieldN_val, Nat.add_eq_right, lookupRow_nil]

theorem decode_zero_eq_lookupRow {w : Word} (hop : fieldOp w = 0x0) :
    (if w = 0x00E0#16 then Decoded.instr .cls else if w = 0x00EE#16 then .instr .ret else .reject (.unknown w)) =
      lookupRow opcodeTable w := by
  have hrows : familyRows 0x0 = opcodeRowsFlow.take 2 := rfl
  simp only [lookupRow_opcodeTable hop, hrows, opcodeRowsFlow, List.take_succ_cons, List.take_zero,
    lookupRow_cons_FFFF, lookupRow_nil]
  rfl

theorem decodeAlu_eq_lookupRow {w : Word} (hop : fieldOp w = 0x8) : decodeAlu w = lookupRow opcodeTable w := by
  have hrows : familyRows 0x8 = opcodeRowsAlu := rfl
  rw [lookupRow_opcodeTable hop, hrows]
  rw [fieldOp_eq] at hop
  simp only [decodeAlu, fieldN_val, opcodeRowsAlu, lookupRow_cons_F00F, hop]
  split <;> simp_all

theorem decodeKey_eq_lookupRow {w : Word} (hop : fieldOp w = 0xE) : decodeKey w = lookupRow opcodeTable w := by
  have hrows : familyRows 0xE = (opcodeRowsRest.drop 4).take 2 := rfl
  rw [lookupRow_opcodeTable hop, hrows]
  rw [fieldOp_eq] at hop
  simp only [decodeKey, fieldKK_toNat, opcodeRowsRest, List.drop_succ_cons, List.drop_zero, List.take_succ_cons,
    List.take_zero, lookupRow_cons_F0FF, hop]
  split <;> simp_all

theorem decodeMisc_eq_lookupRow {w : Word} (hop : fieldOp w = 0xF) : decodeMisc w = lookupRow opcodeTable w := by
  have hrows : familyRows 0xF = opcodeRowsRest.drop 6 := rfl
  rw [lookupRow_opcodeTable hop, hrows]
  rw [fieldOp_eq] at hop
  simp only [decodeMisc, fieldKK_toNat, opcodeRowsRest, List.drop_succ_cons, List.drop_zero, lookupRow_cons_F0FF,
    hop]
  split <;> simp_all

/-! ## The whole decoder -/

/-- Arm `h_(op + 1)` of the decoder is that of family `op`. -/
theorem decode_eq_lookupRow (w : Word) : decode w = lookupRow opcodeTable w := by
  unfold decode
  split
  case h_1 hop => exact decode_zero_eq_lookupRow hop
  case h_2 hop | h_3 hop | h_4 hop | h_5 hop | h_7 hop | h_8 hop | h_11 hop | h_12 hop | h_13 hop | h_14 hop =>
    exact lookupRow_of_single hop rfl rfl
  case h_6 hop | h_10 hop => exact lookupRow_of_single_sub hop rfl rfl
  case h_9 hop => exact decodeAlu_eq_lookupRow hop
  case h_15 hop => exact decodeKey_eq_lookupRow hop
  case h_16 hop => exact decodeMisc_eq_lookupRow hop
  case h_17 =>
    have hlt := fieldOp_lt w
    simp only [imp_false] at *
    omega

/-- A word that meets two rows agrees with both matches wherever both masks look; no two rows' matches agree there. -/
theorem opcodeTable_disjoint : ∀ r ∈ opcodeTable, ∀ q ∈ opcodeTable,
    r.pat &&& q.mask = q.pat &&& r.mask → r.pattern = q.pattern := by decide

theorem OpcodeRow.pattern_eq_of_holds {w : Word} {r q : OpcodeRow} (hr : r ∈ opcodeTable) (hq : q ∈ opcodeTable)
    (hrw : r.holds w = true) (hqw : q.holds w = true) : r.pattern = q.pattern := by
  refine opcodeTable_disjoint r hr q hq ?_
  rw [← (r.holds_iff w).1 hrw, ← (q.holds_iff w).1 hqw, BitVec.and_assoc, BitVec.and_assoc, BitVec.and_comm r.mask]

/-- Settles O4: the decoder is the lookup in the table, and no two rows agree where both masks look. -/
theorem decodeFollowsOpcodeTable : Obligations.DecodeFollowsOpcodeTable :=
  ⟨rfl, decode_eq_lookupRow, fun _ _ _ => OpcodeRow.pattern_eq_of_holds⟩

end Sys2Proof
end

section
/-! PROOFS. O3: a word that meets a row is rebuilt from the bits the row's mask fixes and the fields that its
format reads. -/

namespace Sys2Proof

/-! ## A word from its fixed bits and its fields (R72) -/

theorem encodeA_fields (w : Word) : encodeA (w &&& 0xF000#16) (fieldNNN w) = w := by
  apply BitVec.eq_of_toNat_eq
  rw [encodeA_toNat _ _ _ (and_F000_toNat w), fieldNNN_toNat]
  omega

theorem encodeXK_fields (w : Word) : encodeXK (w &&& 0xF000#16) (fieldX w) (fieldKK w) = w := by
  apply BitVec.eq_of_toNat_eq
  rw [encodeXK_toNat _ _ _ _ (and_F000_toNat w), fieldX_val, fieldKK_toNat]
  omega

theorem encodeXYN_fields (w : Word) : encodeXYN (w &&& 0xF000#16) (fieldX w) (fieldY w) (fieldN w) = w := by
  apply BitVec.eq_of_toNat_eq
  rw [encodeXYN_toNat _ _ _ _ _ (and_F000_toNat w), fieldX_val, fieldY_val, fieldN_val]
  omega

theorem encodeXY_fields (w : Word) : encodeXY (w &&& 0xF00F#16) (fieldX w) (fieldY w) = w := by
  apply BitVec.eq_of_toNat_eq
  rw [encodeXY_toNat _ _ _ _ _ (Nat.mod_lt _ (by decide)) (and_F00F_toNat w), fieldX_val, fieldY_val]
  omega

theorem encodeX_fields (w : Word) : encodeX (w &&& 0xF0FF#16) (fieldX w) = w := by
  apply BitVec.eq_of_toNat_eq
  rw [encodeX_toNat _ _ _ _ (Nat.mod_lt _ (by decide)) (and_F0FF_toNat w), fieldX_val]
  omega

/-! ## The format of each row -/

/-- The formats of R72: which bits a row's mask fixes, and how the encoder fills the others from the row's operands. -/
inductive OpcodeRow.HasFormat (r : OpcodeRow) : Prop
  | fixed (hm : r.mask = 0xFFFF#16) (he : ∀ w, encode (r.operands w) = r.pat)
  | a (hm : r.mask = 0xF000#16) (he : ∀ w, encode (r.operands w) = encodeA r.pat (fieldNNN w))
  | xk (hm : r.mask = 0xF000#16) (he : ∀ w, encode (r.operands w) = encodeXK r.pat (fieldX w) (fieldKK w))
  | xyn (hm : r.mask = 0xF000#16) (he : ∀ w, encode (r.operands w) = encodeXYN r.pat (fieldX w) (fieldY w) (fieldN w))
  | xy (hm : r.mask = 0xF00F#16) (he : ∀ w, encode (r.operands w) = encodeXY r.pat (fieldX w) (fieldY w))
  | x (hm : r.mask = 0xF0FF#16) (he : ∀ w, encode (r.operands w) = encodeX r.pat (fieldX w))

theorem opcodeRowsFlow_hasFormat : ∀ r ∈ opcodeRowsFlow, r.HasFormat := by
  simp only [opcodeRowsFlow, List.forall_mem_cons]
  exact ⟨.fixed rfl fun _ => rfl, .fixed rfl fun _ => rfl, .a rfl fun _ => rfl, .a rfl fun _ => rfl,
    .xk rfl fun _ => rfl, .xk rfl fun _ => rfl, .xy rfl fun _ => rfl, .xy rfl fun _ => rfl,
    .xk rfl fun _ => rfl, .xk rfl fun _ => rfl, List.forall_mem_nil _⟩

theorem opcodeRowsAlu_hasFormat : ∀ r ∈ opcodeRowsAlu, r.HasFormat := by
  simp only [opcodeRowsAlu, List.forall_mem_cons]
  refine ⟨?_, ?_, ?_, ?_, ?_, ?_, ?_, ?_, ?_, List.forall_mem_nil _⟩ <;> exact .xy rfl fun _ => rfl

theorem opcodeRowsRest_hasFormat : ∀ r ∈ opcodeRowsRest, r.HasFormat := by
  simp only [opcodeRowsRest, List.forall_mem_cons]
  refine ⟨.a rfl fun _ => rfl, .a rfl fun _ => rfl, .xk rfl fun _ => rfl, .xyn rfl fun _ => rfl,
    ?_, ?_, ?_, ?_, ?_, ?_, ?_, ?_, ?_, ?_, ?_, List.forall_mem_nil _⟩ <;> exact .x rfl fun _ => rfl

theorem opcodeTable_hasFormat : ∀ r ∈ opcodeTable, r.HasFormat :=
  List.forall_mem_append.2 ⟨List.forall_mem_append.2 ⟨opcodeRowsFlow_hasFormat, opcodeRowsAlu_hasFormat⟩,
    opcodeRowsRest_hasFormat⟩

theorem OpcodeRow.encode_operands {r : OpcodeRow} {w : Word} (hr : r ∈ opcodeTable) (h : r.holds w = true) :
    encode (r.operands w) = w := by
  have hpat : w &&& r.mask = r.pat := (r.holds_iff w).1 h
  cases opcodeTable_hasFormat r hr with
  | fixed hm he => rw [he, ← hpat, hm]; exact BitVec.eq_of_toNat_eq (and_FFFF_toNat w)
  | a hm he => rw [he, ← hpat, hm, encodeA_fields]
  | xk hm he => rw [he, ← hpat, hm, encodeXK_fields]
  | xyn hm he => rw [he, ← hpat, hm, encodeXYN_fields]
  | xy hm he => rw [he, ← hpat, hm, encodeXY_fields]
  | x hm he => rw [he, ← hpat, hm, encodeX_fields]

/-! ## The decoder's output -/

theorem fitsAddressField_fieldNNN (w : Word) : fitsAddressField (fieldNNN w) = true := by
  rw [fitsAddressField_iff, fieldNNN_toNat]
  exact Nat.mod_lt _ (by decide)

theorem opcodeTable_wellFormed : ∀ r ∈ opcodeTable, ∀ w, (r.operands w).wellFormed = true := by
  simp [opcodeTable, opcodeRowsFlow, opcodeRowsAlu, opcodeRowsRest, Instr.wellFormed, fitsAddressField_fieldNNN]

theorem exists_row_of_decode {w : Word} {i : Instr} (h : decode w = .instr i) :
    ∃ r ∈ opcodeTable, r.holds w = true ∧ r.operands w = i := by
  rw [decode_eq_lookupRow, lookupRow] at h
  split at h
  next r hfind =>
    have hholds : r.holds w = true := List.find?_some (p := fun q : OpcodeRow => q.holds w) hfind
    exact ⟨r, List.mem_of_find?_eq_some hfind, hholds, Decoded.instr.inj h⟩
  next => exact Decoded.noConfusion h

/-- Settles O3: the row that a decoded word meets gives its operands, and these rebuild the word. -/
theorem encodeInvertsDecode : Obligations.EncodeInvertsDecode := by
  intro w i h
  obtain ⟨r, hr, hholds, rfl⟩ := exists_row_of_decode h
  exact ⟨opcodeTable_wellFormed r hr w, r.encode_operands hr hholds⟩

end Sys2Proof
end

section
/-! PROOFS. O44 and O56: the pc after an instruction, and the addresses every step keeps below 4096. Each of pc, I and the
stack slots is written by its own few instructions; O44 gives the pc of the rest, `exec_frame` that they keep I and the
stack. -/

namespace Sys2Proof.Machine

/-! ## The pc after an instruction -/

theorem State.writeBytes_pc (s : State) (a : Nat) (bs : List Byte) : (s.writeBytes a bs).pc = s.pc := by
  rw [State.writeBytes_eq]

theorem State.loadRegs_pc (s : State) (x : Reg) : (s.loadRegs x).pc = s.pc := by
  rw [(s.loadRegs_spec x).1]

theorem State.skipIf_pc_lt (s : State) (c : Bool) : (s.skipIf c).pc.toNat < 4096 := by
  rw [State.skipIf_pc]
  split <;> exact mask12_lt _

/-- An instruction without a pc of its own is some updates that keep the pc, and then `advance`. -/
theorem exec_advances {i : Instr} {s t : State} (hi : setsPc i = false) (h : exec i s = .next t) : Advances s t := by
  cases i with
  | ret | jp _ | call _ | jpV0 _ | seImm _ _ | sneImm _ _ | seReg _ _ | sneReg _ _ | skp _ | sknp _ | ldVxK _ =>
    simp [setsPc] at hi
  | bcd x => cases h; exact State.advance_advances (s.writeBytes_pc _ _)
  | store x => cases h; exact State.advance_advances (s.writeBytes_pc _ _)
  | read x => cases h; exact State.advance_advances (s.loadRegs_pc x)
  | _ => cases h; exact State.advance_advances rfl

/-- Settles O44: R24's list is `setsPc`, and every other instruction advances. -/
theorem otherInstructionsAdvance : Obligations.OtherInstructionsAdvance := fun _ _ _ => exec_advances

/-! ## Each address after an instruction -/

/-- The pc is masked at every write, and kept where the instruction faults or waits. -/
theorem exec_pc_lt {i : Instr} {s t : State} (h : exec i s = .next t) (hs : s.pc.toNat < 4096) : t.pc.toNat < 4096 := by
  cases i with
  | ret =>
    rcases exec_ret_cases h with ⟨-, rfl⟩ | ⟨-, rfl⟩
    · exact hs
    · exact mask12_lt _
  | call nnn =>
    rcases exec_call_cases h with ⟨-, rfl⟩ | ⟨-, rfl⟩
    · exact hs
    · exact mask12_lt _
  | ldVxK x =>
    rcases exec_ldVxK_cases h with ⟨-, rfl⟩ | ⟨k, -, rfl⟩
    · exact hs
    · exact mask12_lt _
  | jp _ | jpV0 _ => cases h; exact mask12_lt _
  | seImm _ _ | sneImm _ _ | seReg _ _ | sneReg _ _ | skp _ | sknp _ => cases h; exact s.skipIf_pc_lt _
  | _ =>
    have hadv : t.pc.toNat = (s.pc.toNat + 2) % 4096 := exec_advances rfl h
    rw [hadv]
    exact Nat.mod_lt _ (by decide)

/-- I is masked by Annn and Fx1E, and a glyph's address is at most 75. -/
theorem exec_i_lt {i : Instr} {s t : State} (h : exec i s = .next t) (hs : s.i.toNat < 4096) : t.i.toNat < 4096 := by
  cases i with
  | ldI _ | addI _ => cases h; exact mask12_lt _
  | ldF x =>
    cases h
    rw [State.advance_i, glyphAddr_toNat]
    omega
  | _ =>
    have hi : t.i = s.i := (congrArg State.i (exec_frame h) :)
    rwa [hi]

/-- CALL pushes the pc, which is below 4096 before it. -/
theorem exec_stk_lt {i : Instr} {s t : State} (h : exec i s = .next t) (hpc : s.pc.toNat < 4096)
    (hs : ∀ k : Fin 16, (s.stk[k.val]).toNat < 4096) (k : Fin 16) : (t.stk[k.val]).toNat < 4096 := by
  cases i with
  | call nnn =>
    rcases exec_call_cases h with ⟨-, rfl⟩ | ⟨hroom, rfl⟩
    · exact hs k
    · rw [State.goto_stk, Vector.getElem_set]
      split
      · exact hpc
      · exact hs k
  | _ =>
    have hstk : t.stk = s.stk := (congrArg State.stk (exec_frame h) :)
    simpa only [hstk] using hs k

/-! ## The invariant, move by move -/

theorem exec_addressesMasked {i : Instr} {s t : State} (hs : s.addressesMasked) (h : exec i s = .next t) :
    t.addressesMasked := by
  obtain ⟨hpc, hi, hstk⟩ := hs
  exact ⟨exec_pc_lt h hpc, exec_i_lt h hi, exec_stk_lt h hpc hstk⟩

theorem State.invalidInstruction_addressesMasked {s : State} (hs : s.addressesMasked) (w : Word) :
    (s.invalidInstruction w).addressesMasked := by
  rcases s.invalidInstruction_cases w with ⟨-, h⟩ | ⟨-, h⟩ <;> rw [h]
  · exact hs
  · exact ⟨mask12_lt _, hs.2⟩

theorem State.cpuStep_addressesMasked {s t : State} (hs : s.addressesMasked) (h : s.cpuStep = .next t) :
    t.addressesMasked := by
  rcases State.cpuStep_cases h with ⟨-, rfl⟩ | ⟨-, rfl⟩ | ⟨-, ⟨i, -, hi⟩ | ⟨r, -, rfl⟩⟩
  · exact hs
  · exact hs
  · exact exec_addressesMasked hs hi
  · exact State.invalidInstruction_addressesMasked hs _

theorem State.tick_addressesMasked {s : State} (hs : s.addressesMasked) : s.tick.addressesMasked := by
  unfold State.tick
  split <;> exact hs

theorem State.stop_addressesMasked {s : State} (hs : s.addressesMasked) : s.stop.addressesMasked := by
  unfold State.stop
  split <;> exact hs

/-- An accepted image sets the pc to 0x200; its bytes go to memory only. -/
theorem State.load_addressesMasked {s : State} (hs : s.addressesMasked) (image : List Byte) :
    (s.load image).addressesMasked := by
  by_cases hr : s.rs = .idle
  · by_cases hl : image.length > Config.progMax
    · rw [State.load_of_tooLarge hr hl]
      exact hs
    · rw [State.load_of_fits hr hl, State.writeBytes_eq]
      have hbase : (BitVec.ofNat 16 Config.progBase).toNat < 4096 := by decide
      exact ⟨hbase, hs.2⟩
  · rwa [State.load_of_notIdle hr]

theorem State.reset_addressesMasked : State.reset.addressesMasked := ⟨by decide, by decide, by decide⟩

/-- A host reset gives pc, I and the stack their values of construction. -/
theorem State.hostReset_addressesMasked (s : State) : s.hostReset.addressesMasked := State.reset_addressesMasked

theorem State.move_addressesMasked {s t : State} {e : Event} (hs : s.addressesMasked) (h : s.move e = .next t) :
    t.addressesMasked := by
  cases e with
  | cpuStep => exact State.cpuStep_addressesMasked hs h
  | tick => cases h; exact State.tick_addressesMasked hs
  | load image => cases h; exact State.load_addressesMasked hs image
  | unload => cases h; exact hs
  | stop => cases h; exact State.stop_addressesMasked hs
  | setKey k pressed => cases h; exact hs
  | reset => cases h; exact s.hostReset_addressesMasked

/-- Settles O56: using up the due move touches no address, and every move keeps the invariant. -/
theorem stepKeepsAddressesMasked : Obligations.StepKeepsAddressesMasked := by
  intro s t hs h
  rw [step_eq] at h
  exact State.move_addressesMasked (s := s.afterDue) hs h

end Sys2Proof.Machine
end

section
/-! PROOFS. O13, O14, O15 and O19: jumps, CALL and the register skips. `goto` and `skipIf` write the pc and nothing else. -/

namespace Sys2Proof.Machine

/-! ## The two updates of the pc -/

theorem State.goto_toTarget (s : State) (target : Word) :
    (s.goto target).pc.toNat = target.toNat % 4096 ∧ OnlyPc s (s.goto target) ∧ SameMemory s (s.goto target) :=
  ⟨mask12_toNat target, rfl, s.goto_memRead target⟩

theorem State.skipIf_onlySkips (s : State) {c : Bool} {p : Prop} (h : c = true ↔ p) :
    SkipsWhen p s (s.skipIf c) ∧ OnlyPc s (s.skipIf c) ∧ SameMemory s (s.skipIf c) :=
  ⟨s.skipIf_skips h, rfl, s.skipIf_memRead c⟩

/-! ## Jumps -/

/-- The 16-bit sum of R108 loses nothing that its mask keeps. -/
theorem State.indexedTarget_toNat_mod (s : State) (nnn : Word) :
    (s.indexedTarget nnn).toNat % 4096 = ((s.getV 0).toNat + nnn.toNat) % 4096 := by
  rw [State.indexedTarget, BitVec.toNat_add, BitVec.toNat_setWidth]
  omega

/-- Settles O13: family 1 has one row, and JP is a `goto` to its operand. -/
theorem jumpSetsMaskedPc : Obligations.JumpSetsMaskedPc := by
  refine ⟨fun w hw => ?_, fun nnn s => ⟨_, rfl, s.goto_toTarget nnn⟩⟩
  rw [← fieldOp_eq] at hw
  simp only [decode, hw]

/-- Settles O14: family B has one row, and JP V0 is a `goto` to the sum. -/
theorem indexedJumpAddsV0 : Obligations.IndexedJumpAddsV0 := by
  refine ⟨fun w hw => ?_, fun nnn s => ?_⟩
  · rw [← fieldOp_eq] at hw
    simp only [decode, hw]
  · obtain ⟨hpc, hframe⟩ := s.goto_toTarget (s.indexedTarget nnn)
    exact ⟨_, rfl, hpc.trans (s.indexedTarget_toNat_mod nnn), hframe⟩

/-! ## CALL -/

/-- Settles O15: `exec_call_of_room` gives the next state, in which slot SP is the one set. -/
theorem callPushesOwnAddress : Obligations.CallPushesOwnAddress := by
  intro nnn s k hk
  have hroom : s.sp.val < 16 := hk ▸ k.isLt
  refine ⟨_, exec_call_of_room nnn hroom, mask12_toNat nnn, rfl, ?_, fun j hj => ?_, rfl, fun _ => rfl⟩
  · simp [hk]
  · have hne : s.sp.val ≠ j.val := fun h => hj (Fin.ext (h.symm.trans hk.symm))
    exact Vector.getElem_set_ne hroom j.isLt hne

/-! ## The register skips -/

/-- Settles O19: each is a `skipIf` on its comparison as a Boolean. -/
theorem registerSkipsFollowComparison : Obligations.RegisterSkipsFollowComparison :=
  fun _ _ _ s => ⟨⟨_, rfl, s.skipIf_onlySkips beq_iff_eq⟩, ⟨_, rfl, s.skipIf_onlySkips bne_iff_ne⟩,
    ⟨_, rfl, s.skipIf_onlySkips beq_iff_eq⟩, ⟨_, rfl, s.skipIf_onlySkips bne_iff_ne⟩⟩

end Sys2Proof.Machine
end

section
/-! PROOFS. O22, O23 and O24: register loads, logic and ADD with carry. Each is one register update, `setV` or
`setWithFlag`, and then `advance`; what the two keep is said once, and the rest is the value written. -/

namespace Sys2Proof.Machine

/-! ## A register update and then the advance -/

theorem State.getV_setV_advance (s : State) (x : Reg) (b : Byte) : (s.setV x b).advance.getV x = b :=
  (State.getV_setV s x x b).trans (if_pos rfl)

/-- Writing one register, VF included as an ordinary destination. -/
theorem State.setV_advance_frame (s : State) (x : Reg) (b : Byte) :
    SameRegsBut s (s.setV x b).advance [x] ∧ Advances s (s.setV x b).advance ∧
      OnlyRegs s (s.setV x b).advance ∧ SameMemory s (s.setV x b).advance := by
  refine ⟨fun r hr => ?_, State.advance_advances rfl, rfl, State.sameMemory_of_fields rfl rfl⟩
  have hx : r ≠ x := by simpa using hr
  exact (State.getV_setV s x r b).trans (if_neg hx)

theorem State.getV_setWithFlag_advance (s : State) {x : Reg} (hx : x ≠ Reg.flag) (result flag : Byte) :
    (s.setWithFlag x result flag).advance.getV x = result :=
  (State.getV_setWithFlag s x x result flag).trans ((if_neg hx).trans (if_pos rfl))

theorem State.getV_flag_setWithFlag_advance (s : State) (x : Reg) (result flag : Byte) :
    (s.setWithFlag x result flag).advance.getV Reg.flag = flag :=
  (State.getV_setWithFlag s x Reg.flag result flag).trans (if_pos rfl)

theorem State.setWithFlag_advance_frame (s : State) (x : Reg) (result flag : Byte) :
    SameRegsBut s (s.setWithFlag x result flag).advance [x, 15] ∧ Advances s (s.setWithFlag x result flag).advance ∧
      OnlyRegs s (s.setWithFlag x result flag).advance ∧ SameMemory s (s.setWithFlag x result flag).advance := by
  refine ⟨fun r hr => ?_, State.advance_advances rfl, rfl, State.sameMemory_of_fields rfl rfl⟩
  obtain ⟨hx, hflag⟩ : r ≠ x ∧ r ≠ Reg.flag := by simpa using hr
  exact (State.getV_setWithFlag s x r result flag).trans ((if_neg hflag).trans (if_neg hx))

theorem flagByte_decide (p : Prop) [Decidable p] : flagByte (decide p) = if p then 1 else 0 := by
  simp only [flagByte, decide_eq_true_eq]

/-! ## The instructions -/

/-- Settles O22: each is a `setV` of x; ADD writes the sum of two bytes, which wraps at 256. -/
theorem loadsAndAddImmediate : Obligations.LoadsAndAddImmediate := by
  intro x y kk s
  have hsum : ((s.setV x (s.getV x + kk)).advance.getV x).toNat = ((s.getV x).toNat + kk.toNat) % 256 := by
    rw [State.getV_setV_advance, BitVec.toNat_add]
  exact ⟨⟨_, rfl, s.getV_setV_advance x kk, s.setV_advance_frame x kk⟩,
    ⟨_, rfl, hsum, s.setV_advance_frame x _⟩,
    ⟨_, rfl, s.getV_setV_advance x _, s.setV_advance_frame x _⟩⟩

/-- Settles O23: each is a `setV` of x to the bit vectors' own OR, AND or XOR, which act on each bit. -/
theorem logicIsBitwise : Obligations.LogicIsBitwise := by
  intro x y s
  refine ⟨⟨_, rfl, fun k => ?_, s.setV_advance_frame x _⟩, ⟨_, rfl, fun k => ?_, s.setV_advance_frame x _⟩,
    ⟨_, rfl, fun k => ?_, s.setV_advance_frame x _⟩⟩
  · rw [State.getV_setV_advance, BitVec.getLsbD_or]
  · rw [State.getV_setV_advance, BitVec.getLsbD_and]
  · rw [State.getV_setV_advance, BitVec.getLsbD_xor]

/-- Settles O24: `setWithFlag` is given both values of the old registers and writes the carry last. -/
theorem addSetsCarry : Obligations.AddSetsCarry := by
  intro x y s
  refine ⟨_, rfl, fun hx => ?_, ?_, s.setWithFlag_advance_frame x _ _⟩
  · rw [State.getV_setWithFlag_advance s hx, BitVec.toNat_add]
  · rw [State.getV_flag_setWithFlag_advance, carryFlag, flagByte_decide]

end Sys2Proof.Machine
end

section
/-! PROOFS. O28 to O32: the index register and memory. Each instruction is one update, of I, of memory by `writeBytes` or
of the registers by `loadRegs`, and then `advance`; the frame of each update is said once. -/

namespace Sys2Proof.Machine

/-! ## The three updates and the advance -/

theorem State.withI_advance_frame (s : State) (a : Word) :
    let t := ({ s with i := a } : State).advance
    Advances s t ∧ t = { s with i := t.i, pc := t.pc } ∧ SameMemory s t :=
  ⟨State.advance_advances rfl, rfl, State.sameMemory_of_fields rfl rfl⟩

theorem State.writeBytes_advance_frame (s : State) (a : Nat) (bs : List Byte) :
    Advances s (s.writeBytes a bs).advance ∧ OnlyMem s (s.writeBytes a bs).advance := by
  obtain ⟨m, hm⟩ : ∃ m, s.writeBytes a bs = { s with mem := m } := ⟨_, s.writeBytes_eq a bs⟩
  rw [hm]
  exact ⟨State.advance_advances rfl, rfl⟩

theorem State.loadRegs_advance_frame (s : State) (x : Reg) :
    Advances s (s.loadRegs x).advance ∧ OnlyRegs s (s.loadRegs x).advance ∧ SameMemory s (s.loadRegs x).advance := by
  obtain ⟨v, hv⟩ : ∃ v, s.loadRegs x = { s with v := v } := ⟨_, (s.loadRegs_spec x).1⟩
  rw [hv]
  exact ⟨State.advance_advances rfl, rfl, State.sameMemory_of_fields rfl rfl⟩

/-! ## The index register -/

/-- The 16-bit sum of R152 loses nothing that its mask keeps. -/
theorem State.indexSum_toNat_mod (s : State) (x : Reg) :
    (s.indexSum x).toNat % 4096 = (s.i.toNat + (s.getV x).toNat) % 4096 := by
  rw [State.indexSum, BitVec.toNat_add, BitVec.toNat_setWidth]
  omega

theorem glyphAddr_lowNibble_toNat (b : Byte) : (glyphAddr (lowNibble b)).toNat = 5 * (b.toNat % 16) := by
  rw [glyphAddr_toNat, lowNibble_val]

/-- Settles O28: each writes I alone before the advance, the masked operand, the masked sum or the glyph address. -/
theorem indexRegisterWrites : Obligations.IndexRegisterWrites := fun x nnn s =>
  ⟨⟨_, rfl, mask12_toNat nnn, s.withI_advance_frame _⟩,
    ⟨_, rfl, (mask12_toNat _).trans (s.indexSum_toNat_mod x), s.withI_advance_frame _⟩,
    ⟨_, rfl, glyphAddr_lowNibble_toNat (s.getV x), s.withI_advance_frame _⟩⟩

/-! ## BCD -/

/-- Settles O29: three bytes are written from I up, and each digit fits the byte that holds it. -/
theorem bcdStoresThreeDigits : Obligations.BcdStoresThreeDigits := by
  intro x s
  have hbyte := (s.getV x).isLt
  have hread := s.writeBytes_memRead_written (s.dataAddr 0) (decimalDigits (s.getV x)) (by decide : 3 ≤ Config.memSize)
  refine ⟨_, rfl, ?hundreds, ?tens, ?ones, fun a ha => s.writeBytes_memRead_other _ a _ ha,
    s.writeBytes_advance_frame _ _⟩
  case hundreds => exact (congrArg BitVec.toNat (hread 0 (by decide : 0 < 3))).trans (byteOf_toNat (by omega))
  case tens => exact (congrArg BitVec.toNat (hread 1 (by decide : 1 < 3))).trans (byteOf_toNat (by omega))
  case ones => exact (congrArg BitVec.toNat (hread 2 (by decide : 2 < 3))).trans (byteOf_toNat (by omega))

/-! ## STORE and READ -/

/-- Settles O30: `storeRegs` is a `writeBytes` of V0 to Vx from I up. -/
theorem storeWritesRegisterRange : Obligations.StoreWritesRegisterRange := fun x s =>
  ⟨_, rfl, s.storeRegs_memRead x, s.storeRegs_memRead_other x, s.writeBytes_advance_frame _ _⟩

/-- Settles O31: `loadRegs_spec` says which registers are loaded and which are kept. -/
theorem readLoadsRegisterRange : Obligations.ReadLoadsRegisterRange := by
  intro x s
  have hload := (s.loadRegs_spec x).2
  exact ⟨_, rfl, fun k hk => (hload k).trans (if_pos hk), fun k hk => (hload k).trans (if_neg (not_le.mpr hk)),
    s.loadRegs_advance_frame x⟩

/-- Settles O32: STORE keeps I, so READ loads each register from the address where STORE put it. -/
theorem storeThenReadRestores : Obligations.StoreThenReadRestores := by
  intro x s t u hstore hi hmem
  obtain ⟨t', ht', hstored, -, -, honly⟩ := storeWritesRegisterRange x s
  obtain rfl : t' = t := Host.Outcome.next.inj (ht'.symm.trans hstore)
  obtain ⟨r, hread, hloaded, -⟩ := readLoadsRegisterRange x u
  have hi' : u.i = s.i := hi.trans (congrArg State.i honly :)
  refine ⟨r, hread, fun k hk => ?_⟩
  have haddr : u.dataAddr k.val = s.dataAddr k.val := by rw [State.dataAddr, State.dataAddr, hi']
  calc r.getV k = u.memRead (u.dataAddr k.val) := hloaded k hk
    _ = t'.memRead (s.dataAddr k.val) := by rw [haddr, hmem]
    _ = s.getV k := hstored k hk

end Sys2Proof.Machine
end

section
/-! PROOFS. O34 and O35: the display instructions. CLS writes the frame buffer alone before the advance; DRW writes it and
then VF. What a drawn sprite does to each pixel is `drawSprite_get` and `drawSprite_get_other`. -/

namespace Sys2Proof.Machine

/-! ## Writing the frame buffer and then the advance -/

theorem State.withFb_advance_frame (s : State) (fb : FrameBuffer) :
    let t := ({ s with fb := fb } : State).advance
    Advances s t ∧ t = { s with fb := t.fb, pc := t.pc } ∧ SameMemory s t :=
  ⟨State.advance_advances rfl, rfl, State.sameMemory_of_fields rfl rfl⟩

theorem State.withFb_setV_advance_frame (s : State) (fb : FrameBuffer) (x : Reg) (b : Byte) :
    let t := (({ s with fb := fb } : State).setV x b).advance
    SameRegsBut s t [x] ∧ Advances s t ∧ t = { s with fb := t.fb, v := t.v, pc := t.pc } ∧ SameMemory s t := by
  obtain ⟨hregs, hpc, -, hmem⟩ := State.setV_advance_frame { s with fb := fb } x b
  exact ⟨hregs, hpc, rfl, hmem⟩

/-! ## A sprite's target pixels by their numbers -/

theorem eq_pixelCol_iff {px : Fin 64} {ox : Byte} {c : Nat} : px = pixelCol ox c ↔ px.val = (ox.toNat + c) % 64 :=
  Fin.ext_iff

theorem eq_pixelRow_iff {py : Fin 32} {oy : Byte} {r : Nat} : py = pixelRow oy r ↔ py.val = (oy.toNat + r) % 32 :=
  Fin.ext_iff

/-! ## The instructions -/

/-- Settles O34: the new frame buffer is the blank one. -/
theorem clearBlanksEveryPixel : Obligations.ClearBlanksEveryPixel := fun s =>
  ⟨_, rfl, FrameBuffer.get_blank, s.withFb_advance_frame _⟩

/-- Settles O35: at most 15 rows of 8 pixels are drawn, so no target pixel is met twice. -/
theorem drawXorsSpritePixels : Obligations.DrawXorsSpritePixels := by
  intro x y n s
  refine ⟨_, rfl, ?target, ?other, s.withFb_setV_advance_frame _ _ _⟩
  case target =>
    intro r c px py hr hc hpx hpy
    obtain rfl := eq_pixelCol_iff.mpr hpx
    obtain rfl := eq_pixelRow_iff.mpr hpy
    exact s.drawSprite_get _ _ n.isLt.le hr hc
  case other =>
    intro px py hout
    refine s.drawSprite_get_other _ _ _ px py (fun r c hr hc => ?_)
    rw [eq_pixelCol_iff, eq_pixelRow_iff, not_and_or]
    exact hout r c hr hc

end Sys2Proof.Machine
end

section
/-! PROOFS. O9, O17, O18, O40, O45 and O47: faults, the key wait, the tick and a refused load. Each is the outcome its
state selects, and where a move is due, `step_eq` reduces the step to that move. -/

namespace Sys2Proof.Machine

/-! ## The step of each due move -/

theorem step_of_dueCpuStep {s : State} (h : s.dueMove = .cpuStep) : step s = s.afterDue.cpuStep := by
  rw [step_eq, h, State.move]

theorem step_of_dueTick {s : State} (h : s.dueMove = .tick) : step s = .next s.afterDue.tick := by
  rw [step_eq, h, State.move]

theorem step_of_dueLoad {s : State} {image : List Byte} (h : s.dueMove = .load image) :
    step s = .next (s.afterDue.load image) := by
  rw [step_eq, h, State.move]

/-! ## Invalid instructions -/

/-- In a machine that runs, a step at an Unknown word is what `invalidInstruction` does with the word (R203). -/
theorem step_of_unknown {s : State} (hdue : s.dueMove = .cpuStep) (hrun : s.rs = .running ∨ s.rs = .waitKey)
    (hd : decode s.fetch = .reject (.unknown s.fetch)) :
    step s = .next (s.afterDue.invalidInstruction s.fetch) :=
  (step_of_dueCpuStep hdue).trans (State.cpuStep_of_reject (s := s.afterDue) hrun hd)

/-- Settles O9: the two policies are the two outcomes of `invalidInstruction`. -/
theorem unknownWordFaultsByPolicy : Obligations.UnknownWordFaultsByPolicy := by
  intro s hdue hrun hd
  rw [step_of_unknown hdue hrun hd]
  refine ⟨fun hhalt => ?halt, fun hskip => ?skip⟩
  case halt =>
    rw [State.invalidInstruction_of_halt (s := s.afterDue) hhalt]
    rfl
  case skip =>
    rw [State.invalidInstruction_of_skip (s := s.afterDue) hskip]
    exact ⟨_, rfl, s.nextPc_toNat, rfl⟩

/-! ## Stack faults -/

/-- Settles O17: the recorded word is the encoding of the CALL. -/
theorem callOnFullStackFaults : Obligations.CallOnFullStackFaults := fun nnn _ hfull =>
  ⟨encode (.call nnn), encodeA_toNat 2 0x2000 nnn rfl, exec_call_of_full nnn hfull⟩

/-- Settles O18: RET encodes to the word 0x00EE. -/
theorem returnOnEmptyStackFaults : Obligations.ReturnOnEmptyStackFaults := fun _ hempty => exec_ret_of_empty hempty

/-! ## The key wait -/

/-- Settles O40: with every key released there is no least pressed key. -/
theorem keyWaitSuspends : Obligations.KeyWaitSuspends := fun x s hkeys =>
  exec_ldVxK_of_noKey x (s.lowestKey_none.mpr hkeys)

/-! ## The tick -/

theorem RunState.active_iff (r : RunState) : r.active = true ↔ r = .running ∨ r = .waitKey := by
  cases r <;> decide

theorem State.tick_of_active {s : State} (h : s.rs = .running ∨ s.rs = .waitKey) :
    s.tick = { s with dt := countDown s.dt, st := countDown s.st } :=
  if_pos ((RunState.active_iff _).mpr h)

theorem State.tick_of_inactive {s : State} (h : s.rs = .idle ∨ s.rs = .faulted ∨ s.rs = .stopped) : s.tick = s := by
  rcases h with h | h | h <;> simp [State.tick, h, RunState.active]

/-- Natural subtraction stops at 0, as the countdown does (R212). -/
theorem countDown_toNat (b : Byte) : (countDown b).toNat = b.toNat - 1 := by
  unfold countDown
  split
  case isTrue h => simp [h]
  case isFalse h => bv_omega

/-- Settles O45: a tick either counts both timers down or is the identity, by RS. -/
theorem tickCountsDown : Obligations.TickCountsDown := by
  intro s hdue
  rw [step_of_dueTick hdue]
  refine ⟨fun hrun => ?counts, fun hstill => ?nothing⟩
  case counts =>
    rw [State.tick_of_active (s := s.afterDue) hrun]
    exact ⟨_, rfl, countDown_toNat s.dt, countDown_toNat s.st, rfl⟩
  case nothing => rw [State.tick_of_inactive (s := s.afterDue) hstill]

/-! ## A refused load -/

/-- Settles O47: the two refusals of `load`, which leave at most a report. -/
theorem loadRejectedHasNoEffect : Obligations.LoadRejectedHasNoEffect := by
  intro s image hdue
  rw [step_of_dueLoad hdue]
  refine ⟨fun hidle hlarge => ?tooLarge, fun hloaded => ?notIdle⟩
  case tooLarge => rw [State.load_of_tooLarge (s := s.afterDue) hidle hlarge, State.afterDue_reports]
  case notIdle => rw [State.load_of_notIdle (s := s.afterDue) hloaded]

end Sys2Proof.Machine
end

section
/-! PROOFS. O7, O10, O12 and O49: the step of every state. No move answers a fault or a refusal, and each due move has
its outcome by RS alone. -/

namespace Sys2Proof.Machine

/-! ## Every move answers a next state -/

/-- RET, CALL and Fx0A answer in both of their outcomes, a stack fault being an entry the machine takes (R206); every
other instruction has one outcome. -/
theorem exec_answers (i : Instr) (s : State) : ∃ t, exec i s = .next t := by
  cases i with
  | ret =>
    rcases Nat.eq_zero_or_pos s.sp.val with h0 | hpos
    · exact ⟨_, exec_ret_of_empty h0⟩
    · exact ⟨_, exec_ret_of_pos hpos⟩
  | call nnn =>
    rcases Nat.lt_or_eq_of_le (Nat.le_of_lt_succ s.sp.isLt) with hroom | hfull
    · exact ⟨_, exec_call_of_room nnn hroom⟩
    · exact ⟨_, exec_call_of_full nnn hfull⟩
  | ldVxK x =>
    cases hk : s.lowestKey with
    | none => exact ⟨_, exec_ldVxK_of_noKey x hk⟩
    | some k => exact ⟨_, exec_ldVxK_of_key x hk⟩
  | _ => exact ⟨_, rfl⟩

/-- Where an instruction is fetched, a decoded word is executed and a rejected one is an invalid instruction. -/
theorem State.cpuStep_answers_of_active {s : State} (h : s.rs = .running ∨ s.rs = .waitKey) :
    ∃ t, s.cpuStep = .next t := by
  cases hd : decode s.fetch with
  | instr i =>
    rw [State.cpuStep_of_instr h hd]
    exact exec_answers i s
  | reject r => exact ⟨_, State.cpuStep_of_reject h hd⟩

theorem State.cpuStep_answers (s : State) : ∃ t, s.cpuStep = .next t := by
  cases hrs : s.rs with
  | idle => exact ⟨_, State.cpuStep_of_idle hrs⟩
  | running => exact State.cpuStep_answers_of_active (.inl hrs)
  | waitKey => exact State.cpuStep_answers_of_active (.inr hrs)
  | faulted => exact ⟨_, State.cpuStep_of_halted (.inl hrs)⟩
  | stopped => exact ⟨_, State.cpuStep_of_halted (.inr hrs)⟩

/-- Only a CPU step can do other than answer: the moves of the timer and the host are total functions. -/
theorem State.move_answers (s : State) (e : Event) : ∃ t, s.move e = .next t := by
  cases e with
  | cpuStep => exact s.cpuStep_answers
  | _ => exact ⟨_, rfl⟩

/-- Settles O12: a step is the due move, and every move answers. -/
theorem stepAlwaysAnswers : Obligations.StepAlwaysAnswers := by
  intro s
  rw [step_eq]
  exact s.afterDue.move_answers s.dueMove

/-! ## The CPU step -/

/-- Settles O7: using the due move up changes neither RS nor the fetched word. -/
theorem stepRunsDecodedInstruction : Obligations.StepRunsDecodedInstruction := fun s _ hdue hrun hd =>
  (step_of_dueCpuStep hdue).trans (State.cpuStep_of_instr (s := s.afterDue) hrun hd)

/-- Settles O10: using the due move up changes neither RS nor the reports. -/
theorem idleCpuStepReports : Obligations.IdleCpuStepReports := fun s hdue hidle =>
  (step_of_dueCpuStep hdue).trans (State.cpuStep_of_idle (s := s.afterDue) hidle)

/-! ## Stop and the keys -/

theorem step_of_dueStop {s : State} (h : s.dueMove = .stop) : step s = .next s.afterDue.stop := by
  rw [step_eq, h, State.move]

theorem step_of_dueSetKey {s : State} {k : Fin 16} {pressed : Bool} (h : s.dueMove = .setKey k pressed) :
    step s = .next (s.afterDue.setKey k pressed) := by
  rw [step_eq, h, State.move]

theorem State.stop_of_active {s : State} (h : s.rs = .running ∨ s.rs = .waitKey) : s.stop = { s with rs := .stopped } :=
  if_pos ((RunState.active_iff _).mpr h)

theorem State.stop_of_inactive {s : State} (h : s.rs = .idle ∨ s.rs = .faulted ∨ s.rs = .stopped) : s.stop = s := by
  rcases h with h | h | h <;> simp [State.stop, h, RunState.active]

/-- KEY after a setting of key `k`: the given value at `k` and the old value at every other key (R239). -/
theorem State.setKey_key (s : State) (k j : Fin 16) (pressed : Bool) :
    (s.setKey k pressed).key[j.val] = if j = k then pressed else s.key[j.val] := by
  simp only [State.setKey, Vector.getElem_set, Fin.val_inj, eq_comm]

/-- Settles O49: a stop is decided by RS; `setKey_key` gives the keys, and KEY is the one field that `setKey` writes. -/
theorem stopAndKeyMoves : Obligations.StopAndKeyMoves := by
  intro s
  refine ⟨fun hdue hrun => ?stops, fun hdue hidle => ?ignored, fun k pressed hdue => ?sets⟩
  case stops => rw [step_of_dueStop hdue, State.stop_of_active (s := s.afterDue) hrun]
  case ignored => rw [step_of_dueStop hdue, State.stop_of_inactive (s := s.afterDue) (.inl hidle)]
  case sets =>
    refine ⟨_, step_of_dueSetKey hdue, ?_, fun j hj => ?_, rfl⟩
    · exact (s.afterDue.setKey_key k k pressed).trans (if_pos rfl)
    · exact (s.afterDue.setKey_key k j pressed).trans (if_neg hj)

end Sys2Proof.Machine
end

section
/-! PROOFS. O55: memory stays canonical. Only BCD, STORE and an accepted load write memory, byte by byte through `memWrite`,
which keeps the canonical form; unload drops cells and a host reset drops all of them. -/

namespace Sys2Proof.Machine

theorem State.memCanonical_congr {s t : State} (hrom : t.glyphRom = s.glyphRom) (hmem : t.mem = s.mem)
    (hs : s.memCanonical) : t.memCanonical := by
  rw [State.memCanonical, hrom, hmem]
  exact hs

theorem State.memCanonical_of_empty {s : State} (h : s.mem = []) : s.memCanonical := by
  rw [State.memCanonical, h]
  exact ⟨.nil, fun _ hc => absurd hc List.not_mem_nil⟩

theorem exec_memCanonical {i : Instr} {s t : State} (hs : s.memCanonical) (h : exec i s = .next t) :
    t.memCanonical := by
  cases i with
  | bcd x => cases h; exact State.writeBytes_memCanonical hs _ _
  | store x => cases h; exact State.writeBytes_memCanonical hs _ _
  | _ => exact State.memCanonical_congr (exec_sameParameters h).2.1 (congrArg State.mem (exec_frame h) :) hs

theorem State.invalidInstruction_memCanonical {s : State} (hs : s.memCanonical) (w : Word) :
    (s.invalidInstruction w).memCanonical := by
  rcases s.invalidInstruction_cases w with ⟨-, h⟩ | ⟨-, h⟩ <;> rw [h] <;> exact hs

theorem State.cpuStep_memCanonical {s t : State} (hs : s.memCanonical) (h : s.cpuStep = .next t) :
    t.memCanonical := by
  rcases State.cpuStep_cases h with ⟨-, rfl⟩ | ⟨-, rfl⟩ | ⟨-, ⟨i, -, hi⟩ | ⟨r, -, rfl⟩⟩
  · exact hs
  · exact hs
  · exact exec_memCanonical hs hi
  · exact State.invalidInstruction_memCanonical hs _

theorem State.tick_memCanonical {s : State} (hs : s.memCanonical) : s.tick.memCanonical := by
  unfold State.tick
  split <;> exact hs

theorem State.stop_memCanonical {s : State} (hs : s.memCanonical) : s.stop.memCanonical := by
  unfold State.stop
  split <;> exact hs

theorem State.load_memCanonical {s : State} (hs : s.memCanonical) (image : List Byte) :
    (s.load image).memCanonical := by
  by_cases hr : s.rs = .idle
  · by_cases hl : image.length > Config.progMax
    · rw [State.load_of_tooLarge hr hl]
      exact hs
    · rw [State.load_of_fits hr hl]
      exact State.writeBytes_memCanonical hs Config.progBase image
  · rwa [State.load_of_notIdle hr]

theorem State.move_memCanonical {s t : State} {e : Event} (hs : s.memCanonical) (h : s.move e = .next t) :
    t.memCanonical := by
  cases e with
  | cpuStep => exact State.cpuStep_memCanonical hs h
  | tick => cases h; exact State.tick_memCanonical hs
  | load image => cases h; exact State.load_memCanonical hs image
  | unload => cases h; exact Memory.wf_filter hs _
  | stop => cases h; exact State.stop_memCanonical hs
  | setKey k pressed => cases h; exact hs
  | reset => cases h; exact State.memCanonical_of_empty rfl

/-- Settles O55: using up the due move leaves memory alone, and every move keeps the canonical form. -/
theorem stepKeepsMemoryCanonical : Obligations.StepKeepsMemoryCanonical := by
  intro s t hs h
  rw [step_eq] at h
  exact State.move_memCanonical (s := s.afterDue) hs h

end Sys2Proof.Machine
end

section
/-! PROOFS. O5: the Unknown words. Each family with sub-opcodes rejects a word by its sub-opcode alone; the other families
reject none. -/

namespace Sys2Proof

/-- The decoder rejects a word only as Unknown, with the word itself: it is a lookup in the opcode table. -/
theorem decode_reject_eq_unknown {w : Word} {r : DecodeReject} (h : decode w = .reject r) : r = .unknown w := by
  rw [decode_eq_lookupRow, lookupRow] at h
  split at h
  next => exact Decoded.noConfusion h
  next => exact (Decoded.reject.inj h).symm

/-! ## The families with sub-opcodes (R76) -/

theorem decodeAlu_eq_unknown_iff (w : Word) :
    decodeAlu w = .reject (.unknown w) ↔ 8 ≤ w.toNat % 16 ∧ w.toNat % 16 ≠ 14 := by
  have hlt : w.toNat % 16 < 16 := Nat.mod_lt _ (by decide)
  simp only [decodeAlu, fieldN_val]
  split <;> simp_all
  omega

theorem decodeKey_eq_unknown_iff (w : Word) :
    decodeKey w = .reject (.unknown w) ↔ w.toNat % 256 ≠ 0x9E ∧ w.toNat % 256 ≠ 0xA1 := by
  simp only [decodeKey, fieldKK_toNat]
  split <;> simp_all

theorem decodeMisc_eq_unknown_iff (w : Word) : decodeMisc w = .reject (.unknown w) ↔
    w.toNat % 256 ∉ [0x07, 0x0A, 0x15, 0x18, 0x1E, 0x29, 0x33, 0x55, 0x65] := by
  simp only [decodeMisc, fieldKK_toNat]
  split <;> simp_all

/-- Settles O5: the family selects the decoder's arm, and the arm's sub-opcodes are those that R76 leaves out. -/
theorem unknownWordsAreExactly : Obligations.UnknownWordsAreExactly := by
  intro w
  refine ⟨fun ⟨r, h⟩ => decode_reject_eq_unknown h ▸ h, ?_⟩
  have hlt := fieldOp_lt w
  simp only [← fieldOp_eq]
  unfold decode
  split
  case h_1 hop =>
    simp only [← BitVec.toNat_inj]
    split_ifs <;> simp_all
  case h_2 hop | h_3 hop | h_4 hop | h_5 hop | h_7 hop | h_8 hop | h_11 hop | h_12 hop | h_13 hop | h_14 hop =>
    simp [hop]
  case h_6 hop | h_10 hop => simp [hop, fieldN_val]
  case h_9 hop => simp [hop, decodeAlu_eq_unknown_iff]
  case h_15 hop => simp [hop, decodeKey_eq_unknown_iff]
  case h_16 hop => simp [hop, decodeMisc_eq_unknown_iff]
  case h_17 =>
    simp only [imp_false] at *
    omega

end Sys2Proof
end

section
/-! PROOFS. O52, O57, O58 and O59: RS and FAULT. `cpuStep_cases_of_running` says what a CPU step does to the two where an
instruction is fetched, `move_control_cases` what any other move does; the statements
are read off these. -/

namespace Sys2Proof.Machine

/-! ## Fatal faults -/

/-- A CPU step is fatal exactly when some kind of fault record would be true of the machine that halts. -/
theorem State.fatalNext_iff (s : State) : s.fatalNext ↔ ∃ kind, s.haltedBy kind := by
  constructor
  · rintro (⟨hd, hhalt⟩ | ⟨hd, hfull⟩ | ⟨hd, hempty⟩)
    · exact ⟨.invalidInstruction, hhalt, hd⟩
    · exact ⟨.stackOverflow, hfull, hd⟩
    · exact ⟨.stackUnderflow, hempty, hd⟩
  · rintro ⟨kind, hkind⟩
    cases kind with
    | stackOverflow => exact .inr (.inl hkind.symm)
    | stackUnderflow => exact .inr (.inr hkind.symm)
    | invalidInstruction => exact .inl hkind.symm

theorem State.not_fatalNext_of_instr {s : State} {i : Instr} (hd : decode s.fetch = .instr i)
    (hcall : ∀ nnn, i = .call nnn → s.sp.val < 16) (hret : i = .ret → 0 < s.sp.val) : ¬ s.fatalNext := by
  rintro (⟨⟨w, hw⟩, -⟩ | ⟨⟨nnn, hw⟩, hfull⟩ | ⟨hw, hempty⟩)
  · exact Decoded.noConfusion (hd.symm.trans hw)
  · exact (hcall nnn (Decoded.instr.inj (hd.symm.trans hw))).ne hfull
  · exact (hret (Decoded.instr.inj (hd.symm.trans hw))).ne' hempty

/-! ## A CPU step -/

/-- An executed instruction faults for a reason that holds in the state before it, or is an Fx0A, or leaves RS. -/
theorem exec_control_cases {i : Instr} {s t : State} (hd : decode s.fetch = .instr i) (h : exec i s = .next t) :
    (∃ kind, s.haltedBy kind ∧ t = s.raiseFault kind s.fetch) ∨
    (∃ x, i = .ldVxK x) ∨
    (¬ s.fatalNext ∧ (∀ x, i ≠ .ldVxK x) ∧ t.rs = s.rs) := by
  have hword : encode i = s.fetch := (encodeInvertsDecode _ _ hd).2
  cases i with
  | ret =>
    rcases exec_ret_cases h with ⟨hempty, rfl⟩ | ⟨hpos, rfl⟩
    · exact .inl ⟨.stackUnderflow, ⟨hempty, hd⟩, by rw [hword]⟩
    · exact .inr (.inr ⟨State.not_fatalNext_of_instr hd nofun fun _ => hpos, nofun, rfl⟩)
  | call nnn =>
    rcases exec_call_cases h with ⟨hfull, rfl⟩ | ⟨hroom, rfl⟩
    · exact .inl ⟨.stackOverflow, ⟨hfull, nnn, hd⟩, by rw [hword]⟩
    · exact .inr (.inr ⟨State.not_fatalNext_of_instr hd (fun _ _ => hroom) nofun, nofun, rfl⟩)
  | ldVxK x => exact .inr (.inl ⟨x, rfl⟩)
  | _ =>
    exact .inr (.inr ⟨State.not_fatalNext_of_instr hd nofun nofun, nofun, (exec_control h Bool.false_ne_true).1⟩)

/-- Where an instruction is fetched: a fatal fault, or an Fx0A, or anything else, which leaves RS. -/
theorem State.cpuStep_cases_of_running {s t : State} (hrun : s.rs = .running ∨ s.rs = .waitKey)
    (h : s.cpuStep = .next t) :
    (∃ kind, s.haltedBy kind ∧ t = s.raiseFault kind s.fetch) ∨
    (∃ x, decode s.fetch = .instr (.ldVxK x) ∧ exec (.ldVxK x) s = .next t) ∨
    (¬ s.fatalNext ∧ (∀ x, decode s.fetch ≠ .instr (.ldVxK x)) ∧ t.rs = s.rs) := by
  cases hd : decode s.fetch with
  | instr i =>
    rw [State.cpuStep_of_instr hrun hd] at h
    rcases exec_control_cases hd h with hfault | ⟨x, rfl⟩ | ⟨hfatal, hkey, hrs⟩
    · exact .inl hfault
    · exact .inr (.inl ⟨x, rfl, h⟩)
    · exact .inr (.inr ⟨hfatal, fun x hx => hkey x (Decoded.instr.inj hx), hrs⟩)
  | reject r =>
    have hr := decode_reject_eq_unknown hd
    obtain rfl := Host.Outcome.next.inj ((State.cpuStep_of_reject hrun hd).symm.trans h)
    rcases s.invalidInstruction_cases s.fetch with ⟨hhalt, he⟩ | ⟨hskip, he⟩ <;> rw [he]
    · exact .inl ⟨.invalidInstruction, ⟨hhalt, s.fetch, hr ▸ hd⟩, rfl⟩
    · exact .inr (.inr ⟨by simp [State.fatalNext, hd, hskip], nofun, rfl⟩)

/-- Elsewhere a CPU step adds at most a report. -/
theorem State.cpuStep_of_notRunning {s t : State} (hstill : s.rs = .idle ∨ s.rs = .faulted ∨ s.rs = .stopped)
    (h : s.cpuStep = .next t) : t = { s with reports := t.reports } := by
  rcases hstill with hidle | hhalted
  · rw [State.cpuStep_of_idle hidle] at h
    cases h; rfl
  · rw [State.cpuStep_of_halted hhalted] at h
    cases h; rfl

theorem RunState.still_or_running (r : RunState) :
    (r = .idle ∨ r = .faulted ∨ r = .stopped) ∨ (r = .running ∨ r = .waitKey) := by
  cases r <;> decide

/-- Fx0A waits exactly when no key is pressed. -/
theorem exec_ldVxK_rs {x : Reg} {s t : State} (h : exec (.ldVxK x) s = .next t) :
    ((∀ k : Fin 16, s.key[k.val] = false) → t.rs = .waitKey) ∧
      ((∃ k : Fin 16, s.key[k.val] = true) → t.rs = .running) := by
  rcases exec_ldVxK_cases h with ⟨hnone, rfl⟩ | ⟨k, hsome, rfl⟩
  · refine ⟨fun _ => rfl, fun ⟨k, hk⟩ => ?_⟩
    rw [s.lowestKey_none.mp hnone k] at hk
    exact absurd hk Bool.false_ne_true
  · refine ⟨fun hkeys => ?_, fun _ => rfl⟩
    rw [s.lowestKey_none.mpr hkeys] at hsome
    exact absurd hsome (Option.some_ne_none k).symm

/-- Settles O52: the three cases of a step that fetches; no Fx0A is fatal. -/
theorem runStateByCpuStep : Obligations.RunStateByCpuStep := by
  intro s t hdue h
  rw [step_of_dueCpuStep hdue] at h
  refine ⟨fun hstill => ?still, fun hrun => ?fetches⟩
  case still => exact (congrArg State.rs (State.cpuStep_of_notRunning (s := s.afterDue) hstill h) :)
  have hwait : ∀ x, decode s.fetch = .instr (.ldVxK x) → ¬ s.fatalNext :=
    fun x hd => State.not_fatalNext_of_instr hd nofun nofun
  rcases State.cpuStep_cases_of_running (s := s.afterDue) hrun h with
    ⟨kind, hkind, rfl⟩ | ⟨x, hd, hx⟩ | ⟨hfatal, hkey, hrs⟩
  · have hfatal : s.fatalNext := s.fatalNext_iff.mpr ⟨kind, hkind⟩
    exact ⟨fun _ => rfl, fun ⟨x, hx⟩ => absurd hfatal (hwait x hx), fun hn => absurd hfatal hn⟩
  · exact ⟨fun hf => absurd hf (hwait x hd), fun _ => exec_ldVxK_rs (s := s.afterDue) hx,
      fun _ hn => absurd hd (hn x)⟩
  · exact ⟨fun hf => absurd hf hfatal, fun ⟨x, hx⟩ => absurd hx (hkey x), fun _ _ => hrs⟩

/-! ## The moves of the timer and the host -/

/-- A move that is no CPU step ends in IDLE, RUNNING or STOPPED, or writes at most the timers, a key and the reports. -/
theorem State.move_control_cases {s t : State} {e : Event} (he : e ≠ .cpuStep) (h : s.move e = .next t) :
    (t.rs = .idle ∨ t.rs = .running ∨ t.rs = .stopped) ∨
      t = { s with dt := t.dt, st := t.st, key := t.key, reports := t.reports } := by
  cases e with
  | cpuStep => exact absurd rfl he
  | tick =>
    cases h
    unfold State.tick
    split <;> exact .inr rfl
  | load image =>
    cases h
    by_cases hr : s.rs = .idle
    · by_cases hl : image.length > Config.progMax
      · rw [State.load_of_tooLarge hr hl]
        exact .inr rfl
      · rw [State.load_of_fits hr hl]
        exact .inl (.inr (.inl rfl))
    · rw [State.load_of_notIdle hr]
      exact .inr rfl
  | unload => cases h; exact .inl (.inl rfl)
  | stop =>
    cases h
    unfold State.stop
    split
    · exact .inl (.inr (.inr rfl))
    · exact .inr rfl
  | setKey k pressed => cases h; exact .inr rfl
  | reset => cases h; exact .inl (.inl rfl)

/-- A statement about WAIT_KEY or FAULTED that reads no timer, key, report or coming move is kept by every step when every
CPU step keeps it. -/
theorem step_keeps_of_cpuStep {P : State → Prop}
    (hcpu : ∀ {s t : State}, P s → s.cpuStep = .next t → P t)
    (hset : ∀ {t : State}, t.rs = .idle ∨ t.rs = .running ∨ t.rs = .stopped → P t)
    (hkept : ∀ {s : State}, P s → ∀ dt st key reports schedule,
      P { s with dt := dt, st := st, key := key, reports := reports, schedule := schedule })
    {s t : State} (hs : P s) (h : step s = .next t) : P t := by
  rw [step_eq] at h
  have hdue : P s.afterDue := hkept hs s.dt s.st s.key s.reports s.schedule.tail
  by_cases he : s.dueMove = .cpuStep
  · rw [he] at h
    exact hcpu hdue h
  · rcases State.move_control_cases he h with hrs | ht
    · exact hset hrs
    · rw [ht]
      exact hkept hdue t.dt t.st t.key t.reports s.schedule.tail

/-! ## WAIT_KEY -/

theorem State.cpuStep_waitsAtKeyWait {s t : State} (hs : s.waitsAtKeyWait) (h : s.cpuStep = .next t) :
    t.waitsAtKeyWait := by
  rcases s.rs.still_or_running with hstill | hrun
  · rw [State.cpuStep_of_notRunning hstill h]
    exact hs
  · intro ht
    rcases State.cpuStep_cases_of_running hrun h with ⟨kind, -, rfl⟩ | ⟨x, hd, hx⟩ | ⟨-, hkey, hrs⟩
    · exact RunState.noConfusion ht
    · rcases exec_ldVxK_cases hx with ⟨-, rfl⟩ | ⟨k, -, rfl⟩
      · exact ⟨x, hd⟩
      · exact RunState.noConfusion ht
    · obtain ⟨x, hx⟩ := hs (hrs.symm.trans ht)
      exact absurd hx (hkey x)

theorem State.waitsAtKeyWait_of_rs {t : State} (h : t.rs = .idle ∨ t.rs = .running ∨ t.rs = .stopped) :
    t.waitsAtKeyWait := by
  intro hwait
  simp [hwait] at h

/-- Settles O57: only an Fx0A enters WAIT_KEY and it leaves the pc and memory alone; the premise keeps any other word
from being fetched there. -/
theorem stepKeepsWaitAtKeyWait : Obligations.StepKeepsWaitAtKeyWait := fun _ _ =>
  step_keeps_of_cpuStep State.cpuStep_waitsAtKeyWait State.waitsAtKeyWait_of_rs fun hs _ _ _ _ _ => hs

/-! ## FAULTED -/

theorem State.raiseFault_faultExplained {s : State} {kind : FaultKind} (h : s.haltedBy kind) :
    (s.raiseFault kind s.fetch).faultExplained :=
  fun _ => ⟨kind, rfl, by cases kind <;> exact h⟩

theorem State.cpuStep_faultExplained {s t : State} (hs : s.faultExplained) (h : s.cpuStep = .next t) :
    t.faultExplained := by
  rcases s.rs.still_or_running with hstill | hrun
  · rw [State.cpuStep_of_notRunning hstill h]
    exact hs
  · rcases State.cpuStep_cases_of_running hrun h with ⟨kind, hkind, rfl⟩ | ⟨x, -, hx⟩ | ⟨-, -, hrs⟩
    · exact State.raiseFault_faultExplained hkind
    · rcases exec_ldVxK_cases hx with ⟨-, rfl⟩ | ⟨k, -, rfl⟩ <;> exact nofun
    · intro ht
      simp [hrs.symm.trans ht] at hrun

theorem State.faultExplained_of_rs {t : State} (h : t.rs = .idle ∨ t.rs = .running ∨ t.rs = .stopped) :
    t.faultExplained := by
  intro hfaulted
  simp [hfaulted] at h

/-- Settles O58: a fault that enters FAULTED leaves the pc, memory, SP and the policy alone, and so does every move that
stays there. -/
theorem stepKeepsFaultExplained : Obligations.StepKeepsFaultExplained := fun _ _ =>
  step_keeps_of_cpuStep State.cpuStep_faultExplained State.faultExplained_of_rs fun hs _ _ _ _ _ => hs

/-! ## Reset -/

/-- Settles O59: memory lists nothing, every address is 0, and RS is IDLE. -/
theorem resetMeetsInvariants : Obligations.ResetMeetsInvariants :=
  ⟨State.memCanonical_of_empty rfl, State.reset_addressesMasked, nofun, nofun⟩

end Sys2Proof.Machine
end

section
/-! PROOFS. O11, O46, O48, O50 and O51: the moves of the timer and the host. `step_eq` reduces the step to the due move,
and what each move does is decided by RS and, for a load, by the length of the image. -/

namespace Sys2Proof.Machine

theorem step_of_dueUnload {s : State} (h : s.dueMove = .unload) : step s = .next s.afterDue.unload := by
  rw [step_eq, h, State.move]

theorem step_of_dueReset {s : State} (h : s.dueMove = .reset) : step s = .next s.afterDue.hostReset := by
  rw [step_eq, h, State.move]

/-! ## Moves in a halted machine -/

/-- Settles O11: each of these moves is the identity in FAULTED and STOPPED. -/
theorem haltedAbsorbsMoves : Obligations.HaltedAbsorbsMoves := by
  intro s hhalted hdue
  have hinactive : s.rs = .idle ∨ s.rs = .faulted ∨ s.rs = .stopped := .inr hhalted
  rcases hdue with hdue | hdue | hdue | ⟨image, hdue⟩
  · rw [step_of_dueCpuStep hdue, State.cpuStep_of_halted (s := s.afterDue) hhalted]
  · rw [step_of_dueTick hdue, State.tick_of_inactive (s := s.afterDue) hinactive]
  · rw [step_of_dueStop hdue, State.stop_of_inactive (s := s.afterDue) hinactive]
  · have hloaded : s.rs ≠ .idle := by rcases hhalted with h | h <;> simp [h]
    rw [step_of_dueLoad hdue, State.load_of_notIdle (s := s.afterDue) hloaded]

/-! ## Load -/

/-- Settles O46: an image of at most 3584 bytes ends by 0xFFF, so no address wraps. -/
theorem loadStoresImage : Obligations.LoadStoresImage := by
  intro s image hdue hidle hlen
  have hfits : ¬ image.length > Config.progMax := not_lt.mpr hlen
  rw [step_of_dueLoad hdue, State.load_of_fits (s := s.afterDue) hidle hfits]
  refine ⟨_, rfl, fun k hk => ?image, fun a ha hout => ?other, rfl, rfl, ?frame⟩
  case image =>
    exact s.afterDue.writeBytes_memRead_written 0x200 image (hlen.trans (by decide)) k hk
  case other =>
    refine s.afterDue.writeBytes_memRead_other 0x200 a image (fun k hk => ?_)
    simp only [Config.memSize]
    omega
  case frame =>
    rw [State.writeBytes_eq]

/-! ## Unload -/

/-- Settles O48: the cells from 0x050 up are dropped, and an address without a cell reads 0 there. -/
theorem unloadClearsAboveGlyphs : Obligations.UnloadClearsAboveGlyphs := by
  intro s hdue
  refine ⟨_, step_of_dueUnload hdue, fun a ha => ?_, rfl⟩
  have hmod : a % Config.memSize = a := Nat.mod_eq_of_lt ha
  rw [State.unload_memRead, hmod, State.afterDue_memRead]

/-! ## Reset -/

theorem State.memRead_of_empty {s : State} (h : s.mem = []) (a : Nat) :
    s.memRead a = Memory.unlisted s.glyphRom (a % Config.memSize) := by
  rw [State.memRead, Memory.read, h, Memory.lookup_nil, Option.getD_none]

theorem State.hostReset_memRead (s : State) (a : Nat) :
    s.hostReset.memRead a = Memory.unlisted s.glyphRom (a % Config.memSize) :=
  State.memRead_of_empty rfl a

/-- Settles O50: every vector of construction is a constant one, and memory without cells reads as GLYPH_ROM and zeros. -/
theorem hostResetConstructs : Obligations.HostResetConstructs := by
  intro s hdue
  refine ⟨_, step_of_dueReset hdue, fun r => ?regs, rfl, rfl, rfl, rfl, rfl, fun k => ?stack, fun a ha => ?glyphs,
    fun a hlow ha => ?zeros, FrameBuffer.get_blank, fun k => ?keys, rfl, rfl, rfl, rfl, rfl, rfl, rfl⟩
  case regs => exact Vector.getElem_replicate r.isLt
  case stack => exact Vector.getElem_replicate k.isLt
  case keys => exact Vector.getElem_replicate k.isLt
  case glyphs =>
    have hmod : a % Config.memSize = a := Nat.mod_eq_of_lt (ha.trans (by decide))
    rw [State.hostReset_memRead, hmod, Memory.unlisted, dif_pos ha]
    rfl
  case zeros =>
    have hmod : a % Config.memSize = a := Nat.mod_eq_of_lt ha
    rw [State.hostReset_memRead, hmod, Memory.unlisted, dif_neg (not_lt.mpr hlow)]

/-! ## RS -/

theorem State.tick_rs (s : State) : s.tick.rs = s.rs := by
  unfold State.tick
  split <;> rfl

theorem State.stop_rs (s : State) : s.stop.rs = if s.rs = .running ∨ s.rs = .waitKey then .stopped else s.rs := by
  rw [State.stop]
  simp only [RunState.active_iff]
  split <;> rfl

theorem State.load_rs (s : State) (image : List Byte) :
    (s.load image).rs = if s.rs = .idle ∧ image.length ≤ 3584 then .running else s.rs := by
  by_cases hr : s.rs = .idle
  · by_cases hl : image.length > Config.progMax
    · rw [State.load_of_tooLarge hr hl, if_neg fun h => absurd h.2 (not_le.mpr hl)]
    · rw [State.load_of_fits hr hl, if_pos ⟨hr, not_lt.mp hl⟩]
  · rw [State.load_of_notIdle hr, if_neg fun h => hr h.1]

/-- Settles O51: a stop and a load are decided by RS and the length of the image; the other moves set RS or keep it. -/
theorem runStateByHostMoves : Obligations.RunStateByHostMoves := by
  intro s t h
  rw [step_eq] at h
  refine ⟨?idle, fun image hdue => ?load, fun hdue => ?stop, ?kept⟩
  case idle => rintro (hdue | hdue) <;> rw [hdue] at h <;> cases h <;> rfl
  case load => rw [hdue] at h; cases h; exact s.afterDue.load_rs image
  case stop => rw [hdue] at h; cases h; exact s.afterDue.stop_rs
  case kept =>
    rintro (hdue | ⟨k, pressed, hdue⟩) <;> rw [hdue] at h <;> cases h
    · exact s.afterDue.tick_rs
    · rfl

end Sys2Proof.Machine
end

section
/-! PROOFS. O16, O20 and O21: RET, the key skips, and RET after CALL. -/

namespace Sys2Proof.Machine

/-! ## RET -/

theorem mask12_add_two_toNat (a : Word) : (mask12 (a + 2)).toNat = (a.toNat + 2) % 4096 := by
  have h : (2 : Word).toNat = 2 := rfl
  rw [mask12_toNat, BitVec.toNat_add, h]
  omega

/-- Settles O16: `exec_ret_of_pos` gives the next state, whose SP names the popped slot. -/
theorem returnPopsPastTheCall : Obligations.ReturnPopsPastTheCall := by
  intro s k hk
  have hpop : s.sp.val - 1 = k.val := by omega
  refine ⟨_, exec_ret_of_pos (by omega), ?_, hpop, rfl, fun _ => rfl⟩
  rw [State.goto_pc, mask12_add_two_toNat]
  simp only [hpop]

/-- Settles O21: the slot that CALL set (O15) is the one that RET pops (O16). -/
theorem callThenReturnComesBack : Obligations.CallThenReturnComesBack := by
  intro nnn s t u hroom hcall husp hustk
  obtain ⟨t', ht', -, hsp, hslot, -⟩ := callPushesOwnAddress nnn s ⟨s.sp.val, hroom⟩ rfl
  obtain rfl : t' = t := Host.Outcome.next.inj (ht'.symm.trans hcall)
  obtain ⟨r, hret, hpc, hrsp, -⟩ := returnPopsPastTheCall u ⟨s.sp.val, hroom⟩ (by rw [husp, hsp])
  refine ⟨r, hret, ?_, Fin.ext hrsp⟩
  simp only [hustk, hslot] at hpc
  exact hpc

/-! ## The key skips -/

theorem State.keyDown_lowNibble {s : State} {b : Byte} {k : Fin 16} (hk : k.val = b.toNat % 16) :
    s.keyDown (lowNibble b) = s.key[k.val] := by
  have h : lowNibble b = k := Fin.ext ((lowNibble_val b).trans hk.symm)
  rw [h, State.keyDown]

/-- Settles O20: each is a `skipIf` on the key that the low nibble names. -/
theorem keySkipsFollowKeyState : Obligations.KeySkipsFollowKeyState := by
  intro x s k hk
  have hkey : s.keyDown (lowNibble (s.getV x)) = s.key[k.val] := State.keyDown_lowNibble hk
  exact ⟨⟨_, rfl, s.skipIf_onlySkips (by rw [hkey])⟩,
    ⟨_, rfl, s.skipIf_onlySkips (by rw [hkey, Bool.not_eq_true'])⟩⟩

end Sys2Proof.Machine
end

section
/-! PROOFS. O25, O26, O27, O38 and O39: SUB, SUBN, the shifts, RND, the timer loads and the key wait. Each writes its
registers by `setWithFlag` or `setV`, whose frames are said above, or a timer, and then advances. -/

namespace Sys2Proof.Machine

/-! ## SUB and SUBN -/

theorem sub_toNat_mod (a b : Byte) : (a - b).toNat = (a.toNat + 256 - b.toNat) % 256 := by
  have := b.isLt
  rw [BitVec.toNat_sub]
  omega

theorem greaterFlag_eq_ite (a b : Byte) : greaterFlag a b = if a.toNat > b.toNat then 1 else 0 := flagByte_decide _

/-- Settles O25: `setWithFlag` is given both values of the old registers and writes the flag last. -/
theorem subtractSetsStrictFlag : Obligations.SubtractSetsStrictFlag := by
  intro x y s
  refine ⟨⟨_, rfl, fun hx => ?_, ?_, s.setWithFlag_advance_frame x _ _⟩,
    ⟨_, rfl, fun hx => ?_, ?_, s.setWithFlag_advance_frame x _ _⟩⟩
  · rw [State.getV_setWithFlag_advance s hx, sub_toNat_mod]
  · rw [State.getV_flag_setWithFlag_advance, greaterFlag_eq_ite]
  · rw [State.getV_setWithFlag_advance s hx, sub_toNat_mod]
  · rw [State.getV_flag_setWithFlag_advance, greaterFlag_eq_ite]

/-! ## The shifts -/

theorem flagByte_toNat (c : Bool) : (flagByte c).toNat = c.toNat := by
  cases c <;> rfl

theorem lowBitFlag_toNat (a : Byte) : (lowBitFlag a).toNat = a.toNat % 2 := by
  rw [lowBitFlag, flagByte_toNat, BitVec.getLsbD, Nat.toNat_testBit, Nat.pow_zero, Nat.div_one]

theorem highBitFlag_toNat (a : Byte) : (highBitFlag a).toNat = a.toNat / 128 := by
  have := a.isLt
  rw [highBitFlag, flagByte_toNat, BitVec.getLsbD, Nat.toNat_testBit]
  omega

/-- Settles O26: the operand y is not read, and the flag is the bit of the old Vx. -/
theorem shiftsSetBitOut : Obligations.ShiftsSetBitOut := by
  intro x y s
  refine ⟨⟨_, rfl, fun hx => ?_, ?_, s.setWithFlag_advance_frame x _ _⟩,
    ⟨_, rfl, fun hx => ?_, ?_, s.setWithFlag_advance_frame x _ _⟩⟩
  · rw [State.getV_setWithFlag_advance s hx, BitVec.toNat_ushiftRight, Nat.shiftRight_one]
  · rw [State.getV_flag_setWithFlag_advance, lowBitFlag_toNat]
  · rw [State.getV_setWithFlag_advance s hx, BitVec.toNat_shiftLeft, Nat.shiftLeft_eq, Nat.pow_one]
  · rw [State.getV_flag_setWithFlag_advance, highBitFlag_toNat]

/-! ## RND -/

/-- Settles O27: RND is a `setV` in the state whose draw counter has gone up. -/
theorem randomByteIsMasked : Obligations.RandomByteIsMasked := by
  intro x kk s
  obtain ⟨hregs, hpc, -, hmem⟩ :=
    State.setV_advance_frame { s with draws := s.draws + 1 } x (Config.freeRandom s.draws &&& kk)
  refine ⟨_, rfl, fun k => ?_, rfl, hregs, hpc, rfl, hmem⟩
  rw [State.getV_setV_advance, BitVec.getLsbD_and]

/-! ## The timer loads -/

/-- Settles O38: Fx07 is a `setV` of DT; Fx15 and Fx18 each write one timer. -/
theorem timerMoves : Obligations.TimerMoves := fun x s =>
  ⟨⟨_, rfl, s.getV_setV_advance x s.dt, s.setV_advance_frame x s.dt⟩,
    ⟨_, rfl, rfl, State.advance_advances rfl, rfl, State.sameMemory_of_fields rfl rfl⟩,
    ⟨_, rfl, rfl, State.advance_advances rfl, rfl, State.sameMemory_of_fields rfl rfl⟩⟩

/-! ## The key wait -/

/-- Settles O39: the least pressed key is written by a `setV` in the RUNNING machine, and fits the byte. -/
theorem keyWaitTakesLeastKey : Obligations.KeyWaitTakesLeastKey := by
  intro x s k hk hleast
  obtain ⟨hregs, hpc, -, hmem⟩ := State.setV_advance_frame { s with rs := .running } x (byteOf k.val)
  refine ⟨_, exec_ldVxK_of_key x (s.lowestKey_some k hk hleast), ?_, rfl, hregs, hpc, rfl, hmem⟩
  rw [State.getV_setV_advance, byteOf_toNat (k.isLt.trans (by decide))]

end Sys2Proof.Machine
end

section
/-! PROOFS. O36 and O37: the flag of DRW and drawing twice. The flag is `drawSprite_collision`; drawing twice is O35 used
for both draws, pixel by pixel. -/

namespace Sys2Proof.Machine

theorem exec_drw_flag {x y : Reg} {n : Fin 16} {s t : State} (h : exec (.drw x y n) s = .next t) :
    t.getV 15 = flagByte (s.drawSprite (s.getV x) (s.getV y) n.val).2 := by
  cases h
  exact State.getV_setV_advance _ Reg.flag _

/-- Settles O36: the two clauses are the two values of the collision. -/
theorem drawFlagIsCollision : Obligations.DrawFlagIsCollision := by
  intro x y n s t h
  have hcollision := s.drawSprite_collision (s.getV x) (s.getV y) n.isLt.le
  rw [exec_drw_flag h]
  refine ⟨?set, fun hclear => ?clear⟩
  case set =>
    rintro ⟨r, c, px, py, hr, hc, hpx, hpy, hbit, hlit⟩
    obtain rfl := eq_pixelCol_iff.mpr hpx
    obtain rfl := eq_pixelRow_iff.mpr hpy
    rw [hcollision.mpr ⟨r, c, hr, hc, hbit, hlit⟩]
    rfl
  case clear =>
    have hnone : (s.drawSprite (s.getV x) (s.getV y) n.val).2 = false := by
      rw [Bool.eq_false_iff, Ne, hcollision]
      rintro ⟨r, c, hr, hc, hbit, hlit⟩
      rw [hclear r c _ _ hr hc rfl rfl hbit] at hlit
      exact Bool.false_ne_true hlit
    rw [hnone]
    rfl

/-- Settles O37: a target pixel is XORed twice with the same sprite bit, any other pixel is kept twice. -/
theorem drawTwiceRestores : Obligations.DrawTwiceRestores := by
  intro x y n s t u r hfirst hfb hi hmem hx hy hsecond
  obtain ⟨t', ht', htarget, hother, -⟩ := drawXorsSpritePixels x y n s
  obtain rfl : t' = t := Host.Outcome.next.inj (ht'.symm.trans hfirst)
  obtain ⟨r', hr', htarget', hother', -⟩ := drawXorsSpritePixels x y n u
  obtain rfl : r' = r := Host.Outcome.next.inj (hr'.symm.trans hsecond)
  have hbyte : ∀ k, u.memRead (u.dataAddr k) = s.memRead (s.dataAddr k) := fun k => by
    rw [State.dataAddr, State.dataAddr, hi, hmem]
  simp only [hx, hy, hfb, hbyte] at htarget' hother'
  refine FrameBuffer.ext_get fun px py => ?_
  by_cases hin : ∃ k c : Nat, k < n.val ∧ c < 8 ∧
      px.val = ((s.getV x).toNat + c) % 64 ∧ py.val = ((s.getV y).toNat + k) % 32
  · obtain ⟨k, c, hk, hc, hpx, hpy⟩ := hin
    rw [htarget' k c px py hk hc hpx hpy, htarget k c px py hk hc hpx hpy, Bool.bne_assoc, bne_self_eq_false,
      Bool.bne_false]
  · have hout : ∀ k c : Nat, k < n.val → c < 8 →
        px.val ≠ ((s.getV x).toNat + c) % 64 ∨ py.val ≠ ((s.getV y).toNat + k) % 32 := fun k c hk hc =>
      not_and_or.mp fun ⟨hpx, hpy⟩ => hin ⟨k, c, hk, hc, hpx, hpy⟩
    rw [hother' px py hout, hother px py hout]

end Sys2Proof.Machine
end
